-- ==== Sys2Proof/Config.lean ====
section
/-! DEFINITION. The constants of R9 and R10 as one configuration record whose defaults are this
hardware's values (R11), and the two values the spec leaves open. The widths of Sys2Proof/Word.lean read
the record, so bytes are written BitVec 8 here. -/

namespace Sys2Proof

/-- LAT's value, OPEN (R10, R72, R183, R186; 93 U2): any finite number for each edge `tick` (log 3). -/
opaque Config.openLat (tick : Nat) : Nat

/-- The fixed parameters of R9 (from the source) and the parameters of R10 (of the spec's host interface),
LAT among them (log 14). -/
structure Config where
  /-- BUF_BYTES -/
  bufBytes : Nat := 8192
  /-- FILL -/
  fill : BitVec 8 := 0xFF
  /-- HDR_A -/
  hdrA : Nat := 12
  /-- POFF_A -/
  poffA : Nat := 12
  /-- POFF_B -/
  poffB : Nat := 2
  /-- CAP_A -/
  capA : Nat := 8180
  /-- CAP_B -/
  capB : Nat := 8189
  /-- ACCW_A -/
  accWidthA : Nat := 16
  /-- ACCW_B -/
  accWidthB : Nat := 8
  /-- SIG_A: a sequence of four bytes, not a number (R56) -/
  sigA : List (BitVec 8) := [0x00, 0x32, 0x51, 0x04]
  /-- HLEN_A: decimal 12 (90_conflicts.md C2) -/
  hlenA : BitVec 8 := 0x0C
  /-- FWVER_A -/
  fwverA : BitVec 8 := 0x00
  /-- EETYPE_A -/
  eetypeA : BitVec 8 := 0x0A
  /-- DTYPE_A -/
  dtypeA : BitVec 8 := 0x01
  /-- OUTLEN_B -/
  outlenB : Nat := 8192
  /-- CMD_BITS -/
  cmdBits : Nat := 16
  /-- RSP_BITS -/
  rspBits : Nat := 16
  /-- IMG_ADDR_BITS -/
  imgAddrBits : Nat := 13
  /-- COUNT_BITS -/
  countBits : Nat := 14
  /-- OUTLEN_BITS -/
  outlenBits : Nat := 14
  /-- LAT: how many edges cmd_ready stays 0 after the edge numbered `tick` that accepted a command or was a
  reset edge. Its default is the open value (log 3). -/
  lat : Nat → Nat := Config.openLat

/-- This hardware's configuration: the default of every field (R11). Reducible, so that a width read from
it is a numeral to Lean. -/
abbrev config : Config := {}

/-- What rsp_data shows at edge `tick` while rsp_valid = 0 (R71; 93 U3): any value (log 5). -/
opaque Config.idleRspData (tick : Nat) : BitVec config.rspBits

end Sys2Proof
end

