-- ==== Sys2Proof/Word.lean ====
section
/-! DEFINITION. The word types of the core. A width the spec names as a constant of R9 or R10 is read
from the configuration record (R11). -/

namespace Sys2Proof

/-- One byte of the image buffer or one payload byte (R34, R76). -/
abbrev Byte := BitVec 8

/-- A 16-bit field of the image, which put16 writes as two bytes (R54, R55). -/
abbrev Half := BitVec 16

/-- A command word: CMD_BITS (R10, R71, R74). -/
abbrev Word := BitVec config.cmdBits

/-- A response word: RSP_BITS (R10, R71, R73). -/
abbrev RspWord := BitVec config.rspBits

/-- An image address, 0..8191: IMG_ADDR_BITS (R10, R50). -/
abbrev ImgAddr := BitVec config.imgAddrBits

/-- The accumulator register: the wider of the two adders, ACCW_A (R9, R25). -/
abbrev Acc := BitVec config.accWidthA

/-- The payload byte counter: COUNT_BITS (R10, R26). -/
abbrev Count := BitVec config.countBits

/-- The length of the emitted image: OUTLEN_BITS (R10, R27). -/
abbrev OutLen := BitVec config.outlenBits

end Sys2Proof
end

