-- ==== Sys2Proof/Syntax.lean ====
section
/-! DEFINITION. The commands of the core (one constructor per row of the opcode table, R77) and the
abstract syntax of its assembly lines (R83, R84). -/

namespace Sys2Proof

/-- MODE (R2, R24): 0 is Encoder A, 1 is Encoder B. -/
inductive Mode where
  /-- MODE = 0: the 12-byte header family -/
  | encA
  /-- MODE = 1: the 2-byte length-prefix family -/
  | encB
  deriving DecidableEq, Repr

/-- The register index space of RDREG, indices 0..3 (R32). Indices 4..7 are reserved: no command
names them. -/
inductive RegName where
  /-- index 0 -/
  | status
  /-- index 1 -/
  | acc
  /-- index 2 -/
  | count
  /-- index 3 -/
  | outlen
  deriving DecidableEq, Repr

/-- The commands. Every operand's type is exactly the range the encoding gives it (R76), so a term of
this type is well formed by construction; out-of-range numbers exist only in `AsmLine`. -/
inductive Instr where
  /-- NOP (R100) -/
  | nop
  /-- START m (R102) -/
  | start (m : Mode)
  /-- PUSH b (R110) -/
  | push (b : Byte)
  /-- SEAL (R130) -/
  | sealFrame
  /-- RDIMG a (R151) -/
  | rdimg (a : ImgAddr)
  /-- RDREG r (R153) -/
  | rdreg (r : RegName)
  deriving DecidableEq, Repr

/-- The names of the opcode table's rows (R77). -/
inductive Opcode where
  | nop
  | start
  | push
  | sealFrame
  | rdimg
  | rdreg
  deriving DecidableEq, Repr

/-- The operand of an assembly START: a number, or a name `A` or `B` (R83). -/
inductive AsmMode where
  | num (m : Nat)
  | named (m : Mode)
  deriving DecidableEq, Repr

/-- The operand of an assembly RDREG: a number, or a register's name (R83). -/
inductive AsmReg where
  | num (r : Nat)
  | named (r : RegName)
  deriving DecidableEq, Repr

/-- One line of a command stream as it is written (R83), with the pseudo-commands (R84) and the raw
word `.word w` of 95_test_vectors.md. Numbers are unbounded here; `AsmLine.wellFormed` checks them. -/
inductive AsmLine where
  | nop
  | start (m : AsmMode)
  | push (b : Nat)
  | sealFrame
  | rdimg (a : Nat)
  | rdreg (r : AsmReg)
  /-- STARTA -/
  | startA
  /-- STARTB -/
  | startB
  /-- PUSHS b0, b1, ..., bk -/
  | pushs (bs : List Nat)
  /-- RDSTAT -/
  | rdstat
  /-- RDACC -/
  | rdacc
  /-- RDCOUNT -/
  | rdcount
  /-- RDLEN -/
  | rdlen
  /-- DUMP n -/
  | dump (n : Nat)
  /-- `.word w` -/
  | rawWord (w : Nat)
  deriving DecidableEq, Repr

end Sys2Proof
end

