-- ==== Sys2Proof/WellFormed.lean ====
section
/-! DEFINITION. The operand ranges of an assembly line (R83, R84): an assembler must reject an operand
outside its range and must not wrap it. A command of type `Instr` needs no check: its operand types
are the encoding's ranges. -/

namespace Sys2Proof

/-- m is 0 or 1, or a name (R83). -/
def AsmMode.wellFormed : AsmMode → Bool
  | .num m => m < 2
  | .named _ => true

/-- r is 0..3, or a name (R83). -/
def AsmReg.wellFormed : AsmReg → Bool
  | .num r => r < 4
  | .named _ => true

/-- The ranges of R83; for the pseudo-commands those of R84: PUSHS lists at least one byte, and DUMP's
n is 0..8192. -/
def AsmLine.wellFormed : AsmLine → Bool
  | .nop => true
  | .start m => m.wellFormed
  | .push b => b < 256
  | .sealFrame => true
  | .rdimg a => a < 8192
  | .rdreg r => r.wellFormed
  | .startA => true
  | .startB => true
  | .pushs bs => !bs.isEmpty && bs.all (· < 256)
  | .rdstat => true
  | .rdacc => true
  | .rdcount => true
  | .rdlen => true
  | .dump n => n ≤ 8192
  | .rawWord w => w < 65536

end Sys2Proof
end

