-- ==== Sys2Proof/Decode.lean ====
section
/-! DEFINITION. The opcode map (R77), the decoder over it (R78), total on all 65536 words and rejecting
by name, and the encoder (the words of R83). -/

namespace Sys2Proof

/-- One row of the opcode map: a word w selects it when w and mask equals pat (R77). -/
structure OpRow where
  op : Opcode
  pat : Word
  mask : Word
  deriving DecidableEq, Repr

/-- Why a word is illegal (R79, R80). -/
inductive IllegalWord where
  /-- OP is 0b110 or 0b111 (R79) -/
  | reservedOpcode
  /-- NOP with any of bits 12..0 set (R80) -/
  | nopBits
  /-- START with any of bits 12..1 set (R80) -/
  | startBits
  /-- PUSH with any of bits 12..8 set (R80) -/
  | pushBits
  /-- SEAL with any of bits 12..0 set (R80) -/
  | sealBits
  /-- RDREG with any of bits 12..2 set: indices 4..7 among them (R32, R80) -/
  | rdregBits
  deriving DecidableEq, Repr

/-- The six rows of R77. -/
def opTable : List OpRow :=
  [ ⟨.nop, 0x0000, 0xFFFF⟩,
    ⟨.start, 0x2000, 0xFFFE⟩,
    ⟨.push, 0x4000, 0xFF00⟩,
    ⟨.sealFrame, 0x6000, 0xFFFF⟩,
    ⟨.rdimg, 0x8000, 0xE000⟩,
    ⟨.rdreg, 0xA000, 0xFFFC⟩ ]

/-- The row test of R77. -/
def OpRow.selects (r : OpRow) (w : Word) : Bool := w &&& r.mask == r.pat

/-- OP, bits 15..13 (R74). -/
def opField (w : Word) : BitVec 3 := w.extractLsb' 13 3

/-- M, bit 0 (R76). -/
def modeField (w : Word) : Mode := if w.getLsbD 0 then .encB else .encA

/-- B, bits 7..0 (R76). -/
def byteField (w : Word) : Byte := w.extractLsb' 0 8

/-- A, bits 12..0 (R76). -/
def addrField (w : Word) : ImgAddr := w.extractLsb' 0 config.imgAddrBits

/-- The register with index r (R32). -/
def regOfIndex (r : BitVec 2) : RegName :=
  match r.toNat with
  | 0 => .status
  | 1 => .acc
  | 2 => .count
  | _ => .outlen

/-- R, bits 1..0 (R76). -/
def regField (w : Word) : RegName := regOfIndex (w.extractLsb' 0 2)

/-- The command a selected row and the word's operand fields make (R75, R76). -/
def operandsOf : Opcode → Word → Instr
  | .nop, _ => .nop
  | .start, w => .start (modeField w)
  | .push, w => .push (byteField w)
  | .sealFrame, _ => .sealFrame
  | .rdimg, w => .rdimg (addrField w)
  | .rdreg, w => .rdreg (regField w)

/-- The name of the reason for a word no row selects (R79, R80). -/
def illegalReason (w : Word) : IllegalWord :=
  match (opField w).toNat with
  | 0 => .nopBits
  | 1 => .startBits
  | 2 => .pushBits
  | 3 => .sealBits
  | 5 => .rdregBits
  | _ => .reservedOpcode

/-- Decoding reads only w: test the rows; the row that matches names the command; if none does, w is
illegal (R78). -/
def decode (w : Word) : Except IllegalWord Instr :=
  match opTable.find? (·.selects w) with
  | some r => .ok (operandsOf r.op w)
  | none => .error (illegalReason w)

/-- The index of a register (R32). -/
def regIndex : RegName → BitVec 2
  | .status => 0
  | .acc => 1
  | .count => 2
  | .outlen => 3

/-- MODE's one bit (R2, R24). -/
def modeBit : Mode → BitVec 1
  | .encA => 0
  | .encB => 1

/-- The word of a command (the word column of R83). -/
def encode : Instr → Word
  | .nop => 0x0000
  | .start m => 0x2000 ||| (modeBit m).setWidth config.cmdBits
  | .push b => 0x4000 ||| b.setWidth config.cmdBits
  | .sealFrame => 0x6000
  | .rdimg a => 0x8000 ||| a.setWidth config.cmdBits
  | .rdreg r => 0xA000 ||| (regIndex r).setWidth config.cmdBits

/-- The row a command belongs to (R77). -/
def opcodeOf : Instr → Opcode
  | .nop => .nop
  | .start _ => .start
  | .push _ => .push
  | .sealFrame => .sealFrame
  | .rdimg _ => .rdimg
  | .rdreg _ => .rdreg

/-- The one word of nbits bits whose bits are w; bits at nbits and above are 0. Every command is one
16-bit word (R74, R82). -/
def tableWord (nbits w : Nat) : Word := BitVec.ofNat config.cmdBits (w % 2 ^ nbits)

/-- The instruction the decoder reads from the word an opcode-table row's bits make. -/
def decodeTableWord (nbits w : Nat) : Option Instr :=
  match decode (tableWord nbits w) with
  | .ok i => some i
  | .error _ => none

end Sys2Proof
end

