-- ==== Sys2Proof/Machine/State.lean ====
section
/-! DEFINITION. The state of the WARAJI-CORE (R20) as plain data, its fault and refusal reasons, and the
state after reset (R39). -/

namespace Sys2Proof.Machine

/-- PHASE (R28). The fourth two-bit pattern, 0b11, is never held (log 6). -/
inductive Phase where
  /-- 0b00: no frame open since reset -/
  | idle
  /-- 0b01: frame open; PUSH and SEAL accepted -/
  | accum
  /-- 0b10: frame sealed; the emitted image is valid -/
  | done
  deriving DecidableEq, Repr

/-- What the host drives on the input ports of R71 at one rising edge of clk. -/
structure Edge where
  rst : Bool
  cmdValid : Bool
  cmdData : Word
  rspReady : Bool
  deriving DecidableEq, Repr

/-- The levels on the output ports of R71. -/
structure Outputs where
  cmdReady : Bool
  rspValid : Bool
  rspData : RspWord
  done : Bool
  deriving DecidableEq, Repr

/-- IMG (R34) as the (address, byte) pairs that differ from the fill 0xFF, addresses rising (log 7).
Its operations are in Machine/Ops.lean. -/
abbrev Memory := List Host.Cell

/-- All the spec gives the core (R20), and three fields of the model: `edges` (log 1), `busy` (log 3)
and `tick` (log 4). -/
structure State where
  /-- MODE (R24) -/
  mode : Mode
  /-- ACC (R25) -/
  acc : Acc
  /-- COUNT (R26) -/
  count : Count
  /-- OUTLEN (R27) -/
  outlen : OutLen
  /-- PHASE (R28) -/
  phase : Phase
  /-- TRUNC (R29) -/
  trunc : Bool
  /-- SEQERR (R30) -/
  seqerr : Bool
  /-- ILL (R30) -/
  ill : Bool
  /-- IMG (R34) -/
  img : Memory
  /-- RSP (R35): empty or one pending word -/
  rsp : Option RspWord
  /-- the host's side of the coming rising edges, the next one first (log 1) -/
  edges : List Edge
  /-- how many further edges cmd_ready stays 0 for LAT (log 3) -/
  busy : Nat
  /-- how many edges have passed: the index of the free values (log 4) -/
  tick : Nat
  deriving DecidableEq, Repr

/-- Why the machine stops with a fault. The spec has no fault (R160); this one stands only for states
that no run reaches. -/
inductive Fault where
  /-- Raised by PUSH and by SEAL in mode B when the address they compute is not below 8192. R61: no such
  access happens from reset, so it is raised only in unreachable states. Safe (log 8). -/
  | imgAddressOutside (a : Nat)
  deriving DecidableEq, Repr

/-- Why the machine refuses a command. -/
inductive Refusal where
  /-- Raised by an arm of exec that has no meaning yet; no arm is left so. Safe. -/
  | notModelled (mnemonic : String)
  deriving DecidableEq, Repr

/-- The state after reset (R39, R181). `busy` is LAT's free value, since R183 leaves open when cmd_ready
rises; `edges` and `tick` are the model's own (log 1, log 4). -/
def State.reset : State where
  mode := .encA
  acc := 0x0000
  count := 0
  outlen := 0
  phase := .idle
  trunc := false
  seqerr := false
  ill := false
  img := []
  rsp := none
  edges := []
  busy := config.lat 0
  tick := 1

end Sys2Proof.Machine
end

