-- ==== Sys2Proof/Machine/Ops.lean ====
section
/-! DEFINITION. The named operations over the image buffer and the registers that the commands share:
the per-mode constants of R14, the bytes of a word, IMG as canonical data, put16 (R55) and the named
updates of the state. The core has no exception to take and none to return from (R160, R166, R167);
the status conditions that stand in their place are in Machine/Flags.lean. -/

namespace Sys2Proof.Machine

/-- CAP(m) (R14). -/
def cap : Mode → Nat
  | .encA => config.capA
  | .encB => config.capB

/-- POFF(m) (R14). -/
def poff : Mode → Nat
  | .encA => config.poffA
  | .encB => config.poffB

/-- W(m) (R14, R111). -/
def accWidth : Mode → Nat
  | .encA => config.accWidthA
  | .encB => config.accWidthB

/-- v[7:0] (R12). -/
def loByte (v : Half) : Byte := v.extractLsb' 0 8

/-- v[15:8] (R12). -/
def hiByte (v : Half) : Byte := v.extractLsb' 8 8

/-- IMG[a] (R13): an address no entry lists holds the fill (R34, R39). -/
def Memory.read : Memory → Nat → Byte
  | [], _ => config.fill
  | (k, v) :: rest, a => if k = a then v else Memory.read rest a

/-- IMG[a] <- v (R13), keeping the canonical form: writing the fill removes the entry. -/
def Memory.write : Memory → Nat → Byte → Memory
  | [], a, v => if v = config.fill then [] else [(a, v)]
  | (k, x) :: rest, a, v =>
    if a < k then (if v = config.fill then (k, x) :: rest else (a, v) :: (k, x) :: rest)
    else if a = k then (if v = config.fill then rest else (a, v) :: rest)
    else (k, x) :: Memory.write rest a v

/-- The bytes at a, a+1, ... in increasing offset order (R12). -/
def Memory.writeBytes : Memory → Nat → List Byte → Memory
  | m, _, [] => m
  | m, a, b :: bs => Memory.writeBytes (m.write a b) (a + 1) bs

/-- Every byte 0xFF: the fill of START and of reset (R102, R103, R181). -/
def Memory.filled : Memory := []

/-- The canonical form: addresses strictly rising and below BUF_BYTES, no entry equal to the fill. -/
abbrev Memory.wf (m : Memory) : Prop :=
  m.Pairwise (fun x y => x.1 < y.1) ∧ ∀ c ∈ m, c.1 < config.bufBytes ∧ c.2 ≠ config.fill

/-- The two byte orders of the serializer (R54). -/
inductive ByteOrder where
  | le
  | be
  deriving DecidableEq, Repr

/-- order(m) (R55). -/
def order : Mode → ByteOrder
  | .encA => .le
  | .encB => .be

/-- The two bytes of a field, in increasing offset order (R54). -/
def fieldBytes : ByteOrder → Half → List Byte
  | .le, v => [loByte v, hiByte v]
  | .be, v => [hiByte v, loByte v]

/-- put16(a, v, order) (R55). -/
def put16 (m : Memory) (a : Nat) (v : Half) (o : ByteOrder) : Memory :=
  m.writeBytes a (fieldBytes o v)

/-- A command that writes IMG at the computed address a and so ends in t: the address must exist (R50,
R61). In every state a run reaches it does; elsewhere the command stops by name (log 8). -/
def atImg (a : Nat) (t : State) : Host.Outcome State Fault Refusal :=
  if a < config.bufBytes then .next t else .fault (.imgAddressOutside a)

/-- respond(v) (R13, R73). -/
def respond (v : RspWord) (s : State) : State := { s with rsp := some v }

/-- The update of START (R102). -/
def openFrame (m : Mode) (s : State) : State :=
  { s with
    img := Memory.filled
    acc := 0x0000
    count := 0
    outlen := 0
    mode := m
    trunc := false
    phase := .accum }

/-- The part of SEAL's update both modes share: the serialized image, OUTLEN, and PHASE <- DONE (R130). -/
def closeFrame (img : Memory) (outlen : Nat) (s : State) : State :=
  { s with
    img := img
    outlen := BitVec.ofNat config.outlenBits outlen
    phase := .done }

end Sys2Proof.Machine
end

