-- ==== Sys2Proof/Machine/Flags.lean ====
section
/-! DEFINITION. The status conditions (R161) and the STATUS word (R31). -/

namespace Sys2Proof.Machine

/-- set TRUNC (R29, R116). -/
def setTrunc (s : State) : State := { s with trunc := true }

/-- set SEQERR (R30, R162). -/
def setSeqerr (s : State) : State := { s with seqerr := true }

/-- set ILL (R30, R163). -/
def setIll (s : State) : State := { s with ill := true }

/-- PHASE's two bits (R28). -/
def phaseBits : Phase → BitVec 2
  | .idle => 0b00
  | .accum => 0b01
  | .done => 0b10

/-- STATUS: ten zeros, ILL, SEQERR, TRUNC, MODE, PHASE, from bit 15 down (R31, R153). -/
def statusWord (s : State) : RspWord :=
  0#10 ++ BitVec.ofBool s.ill ++ BitVec.ofBool s.seqerr ++ BitVec.ofBool s.trunc ++
    modeBit s.mode ++ phaseBits s.phase

end Sys2Proof.Machine
end

