-- ==== Sys2Proof/Machine/Operands.lean ====
section
/-! DEFINITION. What the operands of a command stand for: the registers RDREG reads and the image
addresses the commands compute. -/

namespace Sys2Proof.Machine

/-- The value RDREG returns for each index (R32, R153). -/
def readReg : RegName → State → RspWord
  | .status, s => statusWord s
  | .acc, s => s.acc.setWidth config.rspBits
  | .count, s => s.count.setWidth config.rspBits
  | .outlen, s => s.outlen.setWidth config.rspBits

/-- POFF(MODE) + COUNT: where PUSH stores its byte (R115). -/
def payloadAddr (s : State) : Nat := poff s.mode + s.count.toNat

/-- 2 + COUNT: where SEAL puts the trailer in mode B (R136). -/
def trailerAddr (s : State) : Nat := config.poffB + s.count.toNat

/-- RDIMG's byte, zero-extended to a response word (R151). -/
def imgWord (a : ImgAddr) (s : State) : RspWord := (s.img.read a.toNat).setWidth config.rspBits

end Sys2Proof.Machine
end

