-- ==== Sys2Proof/Machine/Accumulate.lean ====
section
/-! DEFINITION. The payload family (41_accumulate.md): the modular adder and PUSH. -/

namespace Sys2Proof.Machine

/-- acc_add (R114): the W(m)-bit wrapping sum (R111) of ACC's low W(m) bits and the byte, zero-extended
to ACC: all 16 bits in mode A; in mode B 8 bits, with bits 15..8 zero. -/
def accAdd (m : Mode) (acc : Acc) (b : Byte) : Acc :=
  (acc.setWidth (accWidth m) + b.setWidth (accWidth m)).setWidth config.accWidthA

/-- The third branch of PUSH (R110): every right-hand side reads the state before the command. -/
def storePayload (b : Byte) (s : State) : State :=
  { s with
    img := s.img.write (payloadAddr s) b
    acc := accAdd s.mode s.acc b
    count := s.count + 1 }

/-- PUSH b (R110): the phase check (R117), then the capacity check (R116), then the store (R113-R115). -/
def execPush (b : Byte) (s : State) : Host.Outcome State Fault Refusal :=
  if s.phase ≠ .accum then .next (setSeqerr s)
  else if s.count.toNat = cap s.mode then .next (setTrunc s)
  else atImg (payloadAddr s) (storePayload b s)

end Sys2Proof.Machine
end

