-- ==== Sys2Proof/Machine/Control.lean ====
section
/-! DEFINITION. The control family (40_control.md): NOP and START. -/

namespace Sys2Proof.Machine

/-- NOP (R100): nothing. -/
def execNop (s : State) : Host.Outcome State Fault Refusal := .next s

/-- START m (R102): legal in every phase (R104); SEQERR and ILL survive (R105). -/
def execStart (m : Mode) (s : State) : Host.Outcome State Fault Refusal := .next (openFrame m s)

end Sys2Proof.Machine
end

