-- ==== Sys2Proof/Machine/Readback.lean ====
section
/-! DEFINITION. The readback family (43_readback.md): RDIMG and RDREG, legal in every phase. -/

namespace Sys2Proof.Machine

/-- RDIMG a (R151, R152). -/
def execRdimg (a : ImgAddr) (s : State) : Host.Outcome State Fault Refusal :=
  .next (respond (imgWord a s) s)

/-- RDREG r (R153). -/
def execRdreg (r : RegName) (s : State) : Host.Outcome State Fault Refusal :=
  .next (respond (readReg r s) s)

end Sys2Proof.Machine
end

