-- ==== Sys2Proof/Machine/Serialize.lean ====
section
/-! DEFINITION. The serializer (42_serialize.md): SEAL for both encoders. -/

namespace Sys2Proof.Machine

/-- The eight constant bytes of the header: signature, header length, firmware version, EEPROM type,
data type (R131, R135). -/
def headerConst : List Byte :=
  config.sigA ++ [config.hlenA, config.fwverA, config.eetypeA, config.dtypeA]

/-- The image seal_A leaves: the constant bytes at 0..7, N at 8..9, ACC at 10..11 (R131, R132). -/
def sealedImgA (s : State) : Memory :=
  put16 (put16 (s.img.writeBytes 0 headerConst) 8 (s.count.setWidth 16) (order s.mode)) 10 s.acc
    (order s.mode)

/-- seal_A, then PHASE <- DONE (R130, R131, R133). -/
def sealA (s : State) : State := closeFrame (sealedImgA s) (config.hdrA + s.count.toNat) s

/-- (0x100 - c) mod 0x100: the trailer for the 8-bit checksum c (R137). -/
def trailerByte (c : Byte) : Byte := BitVec.ofNat 8 ((0x100 - c.toNat) % 0x100)

/-- The image seal_B leaves: N+1 at 0..1, the trailer after the payload (R136). -/
def sealedImgB (s : State) : Memory :=
  (put16 s.img 0 (s.count.setWidth 16 + 1) (order s.mode)).write (trailerAddr s)
    (trailerByte (loByte s.acc))

/-- seal_B, then PHASE <- DONE (R130, R136, R138). -/
def sealB (s : State) : State := closeFrame (sealedImgB s) config.outlenB s

/-- SEAL (R130): outside ACCUM only SEQERR is set (R142). -/
def execSeal (s : State) : Host.Outcome State Fault Refusal :=
  if s.phase ≠ .accum then .next (setSeqerr s)
  else
    match s.mode with
    | .encA => .next (sealA s)
    | .encB => atImg (trailerAddr s) (sealB s)

end Sys2Proof.Machine
end

