-- ==== Sys2Proof/Machine/Dispatch.lean ====
section
/-! DEFINITION. The effect of one accepted command: one arm per constructor of Instr. -/

namespace Sys2Proof.Machine

def exec (i : Instr) (s : State) : Host.Outcome State Fault Refusal :=
  match i with
  | .nop => Sys2Proof.Machine.execNop s
  | .start m => Sys2Proof.Machine.execStart m s
  | .push b => Sys2Proof.Machine.execPush b s
  | .sealFrame => Sys2Proof.Machine.execSeal s
  | .rdimg a => Sys2Proof.Machine.execRdimg a s
  | .rdreg r => Sys2Proof.Machine.execRdreg r s

end Sys2Proof.Machine
end

