-- ==== Sys2Proof/Machine/Illegal.lean ====
section
/-! DEFINITION. The effect of an illegal command word (R163, R154). -/

namespace Sys2Proof.Machine

/-- OP = 0b101: the illegal words that still answer a read (R154). -/
def answersRead (w : Word) : Bool := opField w == 0b101

/-- An accepted illegal word sets ILL and changes nothing else; with OP = 0b101 it responds 0x0000
(R154, R163). -/
def execIllegal (w : Word) (s : State) : Host.Outcome State Fault Refusal :=
  .next (if answersRead w then respond 0x0000 (setIll s) else setIll s)

end Sys2Proof.Machine
end

