-- ==== Sys2Proof/Machine/Handshake.lean ====
section
/-! DEFINITION. The command and response channels (R71-R73) and the reset input (R180, R181) at one
rising edge of clk: what the core shows, when it accepts a word, and what each kind of edge does. -/

namespace Sys2Proof.Machine

/-- An edge at which the host drives nothing. -/
def Edge.quiet : Edge := ⟨false, false, 0x0000, false⟩

/-- What the host drives at the coming edge. Past the end of the list it drives nothing (log 1). -/
def currentEdge (s : State) : Edge := s.edges.headD Edge.quiet

/-- cmd_ready at the coming edge: 0 while rst = 1, while RSP is full, and for LAT after a command or a
reset (R72, R73, R181, R183). -/
def cmdReady (s : State) : Bool := !(currentEdge s).rst && s.rsp.isNone && s.busy == 0

/-- rsp_valid at the coming edge: 1 exactly while RSP is full, and 0 while rst = 1 (R73, R181). -/
def rspValid (s : State) : Bool := !(currentEdge s).rst && s.rsp.isSome

/-- rsp_data: the word RSP holds while rsp_valid = 1, and any value otherwise (R71, R73; log 5). -/
def rspData (s : State) : RspWord :=
  if rspValid s then s.rsp.getD (Config.idleRspData s.tick) else Config.idleRspData s.tick

/-- The output ports before the coming edge (R71); done follows PHASE (R37). -/
def outputs (s : State) : Outputs where
  cmdReady := cmdReady s
  rspValid := rspValid s
  rspData := rspData s
  done := s.phase == .done

/-- A command is accepted at an edge with rst = 0, cmd_valid = 1 and cmd_ready = 1 (R72). -/
def accepts (s : State) : Bool :=
  !(currentEdge s).rst && (currentEdge s).cmdValid && cmdReady s

/-- A response is taken at an edge with rsp_valid = 1 and rsp_ready = 1 (R73). -/
def takesResponse (s : State) : Bool := rspValid s && (currentEdge s).rspReady

/-- One edge has passed. -/
def passEdge (s : State) : State := { s with edges := s.edges.tail, tick := s.tick + 1 }

/-- An edge with rst = 1: the reset state (R181); cmd_ready then stays 0 for a free number of edges
(R183). -/
def resetEdge (s : State) : State :=
  { State.reset with
    edges := s.edges.tail
    busy := config.lat s.tick
    tick := s.tick + 1 }

/-- The state in which the accepted command takes effect: the edge has passed and cmd_ready will stay 0
for LAT (R72, R186). -/
def acceptEdge (s : State) : State := { passEdge s with busy := config.lat s.tick }

/-- An edge without reset and without acceptance changes nothing, but a pending response may be taken
(R72, R73). -/
def waitEdge (s : State) : State :=
  { passEdge s with
    rsp := if takesResponse s then none else s.rsp
    busy := s.busy - 1 }

/-- The effect of an accepted word: the command it decodes to, or that of an illegal word (R78). -/
def runWord (w : Word) (s : State) : Host.Outcome State Fault Refusal :=
  match decode w with
  | .ok i => exec i s
  | .error _ => execIllegal w s

/-- The host offers the word at the coming edge to a core that is ready for it. -/
def offerWord (w : Word) (s : State) : State :=
  { s with
    edges := ⟨false, true, w, false⟩ :: s.edges
    rsp := none
    busy := 0 }

end Sys2Proof.Machine
end

