-- ==== Sys2Proof/Machine/Step.lean ====
section
/-! DEFINITION. One step: one rising edge of clk (R71). -/

namespace Sys2Proof.Machine

/-- One rising edge: reset (R181), or the acceptance of one command and its whole effect (R72, R186),
or neither. -/
def step (s : State) : Host.Outcome State Fault Refusal :=
  if (currentEdge s).rst then .next (resetEdge s)
  else if accepts s then runWord (currentEdge s).cmdData (acceptEdge s)
  else .next (waitEdge s)

/-- The state in which the next step accepts and runs the word an opcode-table row's bits make: the
host offers it at the coming edge, RSP is empty and cmd_ready is 1 (log 2). -/
def State.withFetchWord (s : State) (nbits w : Nat) : State := offerWord (tableWord nbits w) s

end Sys2Proof.Machine
end

