-- ==== Sys2Proof/Machine/Assembler.lean ====
section
/-! DEFINITION. The assembler of R83 and R84: reading one line of a command stream, its range checks
(Sys2Proof/WellFormed.lean) and the command words it stands for. -/

namespace Sys2Proof.Machine

/-- The encoder an in-range START operand selects (R76). -/
def asmMode : AsmMode → Mode
  | .num m => if m = 0 then .encA else .encB
  | .named m => m

/-- The register an in-range RDREG operand selects (R32). -/
def asmReg : AsmReg → RegName
  | .num r => regOfIndex (BitVec.ofNat 2 r)
  | .named r => r

/-- The PUSH words of a list of bytes, in order (R84). -/
def pushWords (bs : List Nat) : List Word := bs.map fun b => encode (.push (BitVec.ofNat 8 b))

/-- RDIMG 0, ..., RDIMG n-1; nothing for n = 0 (R84). -/
def dumpWords (n : Nat) : List Word :=
  (List.range n).map fun a => encode (.rdimg (BitVec.ofNat config.imgAddrBits a))

/-- The words of a line whose operands are in range (R83, R84). -/
def lineWords : AsmLine → List Word
  | .nop => [encode .nop]
  | .start m => [encode (.start (asmMode m))]
  | .push b => pushWords [b]
  | .sealFrame => [encode .sealFrame]
  | .rdimg a => [encode (.rdimg (BitVec.ofNat config.imgAddrBits a))]
  | .rdreg r => [encode (.rdreg (asmReg r))]
  | .startA => [encode (.start .encA)]
  | .startB => [encode (.start .encB)]
  | .pushs bs => pushWords bs
  | .rdstat => [encode (.rdreg .status)]
  | .rdacc => [encode (.rdreg .acc)]
  | .rdcount => [encode (.rdreg .count)]
  | .rdlen => [encode (.rdreg .outlen)]
  | .dump n => dumpWords n
  | .rawWord w => [BitVec.ofNat config.cmdBits w]

/-- An operand outside its range is rejected and not wrapped (R83). -/
def assembleLine (l : AsmLine) : Option (List Word) :=
  if l.wellFormed then some (lineWords l) else none

/-- `;` starts a comment (R83). -/
def stripComment : List Char → List Char
  | [] => []
  | c :: cs => if c = ';' then [] else c :: stripComment cs

/-- What separates the words of a line (log 13). -/
def isSeparator (c : Char) : Bool := c = ' ' || c = ',' || c = '\t' || c = '\r'

/-- A token, if it holds a character. -/
def flushToken (t : List Char) : List (List Char) := if t.isEmpty then [] else [t]

/-- The tokens of a line; `cur` is the token being read. -/
def tokens (cur : List Char) : List Char → List (List Char)
  | [] => flushToken cur
  | c :: cs => if isSeparator c then flushToken cur ++ tokens [] cs else tokens (cur ++ [c]) cs

/-- The value of a hexadecimal digit. -/
def digitValue (c : Char) : Option Nat :=
  if '0' ≤ c ∧ c ≤ '9' then some (c.toNat - '0'.toNat)
  else if 'a' ≤ c ∧ c ≤ 'f' then some (c.toNat - 'a'.toNat + 10)
  else if 'A' ≤ c ∧ c ≤ 'F' then some (c.toNat - 'A'.toNat + 10)
  else none

/-- Digits of a base, after a value already read. -/
def readDigits (base acc : Nat) : List Char → Option Nat
  | [] => some acc
  | c :: cs =>
    match digitValue c with
    | some d => if d < base then readDigits base (base * acc + d) cs else none
    | none => none

/-- A number: decimal, or hexadecimal with a 0x prefix (R83). -/
def readNumber : List Char → Option Nat
  | [] => none
  | ['0', 'x'] => none
  | '0' :: 'x' :: ds => readDigits 16 0 ds
  | ds => readDigits 10 0 ds

/-- START's operand: a number or the names A and B (R83). -/
def readMode (t : List Char) : Option AsmMode :=
  if t = "A".toList then some (.named .encA)
  else if t = "B".toList then some (.named .encB)
  else (readNumber t).map .num

/-- RDREG's operand: a number or a register's name (R83). -/
def readRegister (t : List Char) : Option AsmReg :=
  if t = "STATUS".toList then some (.named .status)
  else if t = "ACC".toList then some (.named .acc)
  else if t = "COUNT".toList then some (.named .count)
  else if t = "OUTLEN".toList then some (.named .outlen)
  else (readNumber t).map .num

/-- A line without operands. -/
def readBare (t : List Char) : Option AsmLine :=
  if t = "NOP".toList then some .nop
  else if t = "SEAL".toList then some .sealFrame
  else if t = "STARTA".toList then some .startA
  else if t = "STARTB".toList then some .startB
  else if t = "RDSTAT".toList then some .rdstat
  else if t = "RDACC".toList then some .rdacc
  else if t = "RDCOUNT".toList then some .rdcount
  else if t = "RDLEN".toList then some .rdlen
  else none

/-- A line with one operand. -/
def readUnary (t x : List Char) : Option AsmLine :=
  if t = "START".toList then (readMode x).map .start
  else if t = "PUSH".toList then (readNumber x).map .push
  else if t = "RDIMG".toList then (readNumber x).map .rdimg
  else if t = "RDREG".toList then (readRegister x).map .rdreg
  else if t = "PUSHS".toList then (readNumber x).map fun b => .pushs [b]
  else if t = "DUMP".toList then (readNumber x).map .dump
  else if t = ".word".toList then (readNumber x).map .rawWord
  else none

/-- The command a line's tokens write; only PUSHS takes more than one operand (R83, R84). -/
def readTokens : List (List Char) → Option AsmLine
  | [] => none
  | [t] => readBare t
  | [t, x] => readUnary t x
  | t :: xs => if t = "PUSHS".toList then (xs.mapM readNumber).map .pushs else none

/-- The words of one written line: none when the assembler rejects it, no words for a blank line or a
comment (R83). -/
def assembleText (line : List Char) : Option (List Word) :=
  match tokens [] (stripComment line) with
  | [] => some []
  | ts => (readTokens ts).bind assembleLine

end Sys2Proof.Machine
end

