-- ==== Sys2Proof/Safety.lean ====
section
/-! DEFINITION. The terms claims use: the emitted image (R68), the images the two encoders must produce
as functions of the payload alone (R51, R52), command sequences and the host's protocol (R188), faulted
states (R176), and the invariant of the reachable states (R36, R38, R51, R52). -/

namespace Sys2Proof.Safety

open Sys2Proof.Machine

/-- The bytes IMG[0 .. n-1]. -/
def imgBytes (m : Memory) (n : Nat) : List Byte := (List.range n).map m.read

/-- The emitted image: IMG[0 .. OUTLEN-1] in DONE; in any other phase none is defined (R68). -/
def emittedImage (s : State) : Option (List Byte) :=
  if s.phase = .done then some (imgBytes s.img s.outlen.toNat) else none

/-- The sum of bytes as an unbounded number. -/
def byteSum (bs : List Byte) : Nat := (bs.map BitVec.toNat).sum

/-- The checksum of a payload: its byte sum modulo 2^W (R15, R118). -/
def checksum (m : Mode) (bs : List Byte) : Nat := byteSum bs % 2 ^ accWidth m

/-- The k-th byte of a number, byte 0 the least significant. -/
def byteOf (k n : Nat) : Byte := BitVec.ofNat 8 (n / 256 ^ k)

/-- Encoder A's image of a payload: 12 + N bytes (R51). -/
def imageA (bs : List Byte) : List Byte :=
  [0x00, 0x32, 0x51, 0x04, 0x0C, 0x00, 0x0A, 0x01,
    byteOf 0 bs.length, byteOf 1 bs.length,
    byteOf 0 (checksum .encA bs), byteOf 1 (checksum .encA bs)] ++ bs

/-- Encoder B's image of a payload: 8192 bytes (R52). -/
def imageB (bs : List Byte) : List Byte :=
  [byteOf 1 (bs.length + 1), byteOf 0 (bs.length + 1)] ++ bs ++
    [byteOf 0 (256 - checksum .encB bs)] ++ List.replicate (8192 - (3 + bs.length)) 0xFF

/-- The image of the encoder a mode selects (R2). -/
def image : Mode → List Byte → List Byte
  | .encA => imageA
  | .encB => imageB

/-- Commands taking effect one after another (R63), stopping at the first fault or refusal. -/
def runCommands : List Instr → State → Host.Outcome State Fault Refusal
  | [], s => .next s
  | i :: is, s =>
    match exec i s with
    | .next t => runCommands is t
    | .fault r => .fault r
    | .refused r => .refused r

/-- The commands of one frame (R188): START m, one PUSH per payload byte in order, SEAL. -/
def frameCommands (m : Mode) (bs : List Byte) : List Instr :=
  .start m :: (bs.map .push ++ [.sealFrame])

/-- The commands that may come anywhere in the host's sequence (R188). -/
def isRead : Instr → Bool
  | .nop => true
  | .start _ => false
  | .push _ => false
  | .sealFrame => false
  | .rdimg _ => true
  | .rdreg _ => true

/-- The host's protocol (R188): PUSH and SEAL only in a frame that START opened and no SEAL has closed.
`opened` says whether a frame is open before the list. -/
def followsProtocol : Bool → List Instr → Bool
  | _, [] => true
  | opened, .nop :: is => followsProtocol opened is
  | _, .start _ :: is => followsProtocol true is
  | opened, .push _ :: is => opened && followsProtocol true is
  | opened, .sealFrame :: is => opened && followsProtocol false is
  | opened, .rdimg _ :: is => followsProtocol opened is
  | opened, .rdreg _ :: is => followsProtocol opened is

/-- The commands that may come between START and SEAL (R188): payload bytes, and the reads. -/
def inFrame : Instr → Bool
  | .nop => true
  | .start _ => false
  | .push _ => true
  | .sealFrame => false
  | .rdimg _ => true
  | .rdreg _ => true

/-- The payload bytes a command sequence pushes, in order. -/
def pushedBytes : List Instr → List Byte
  | [] => []
  | .nop :: is => pushedBytes is
  | .start _ :: is => pushedBytes is
  | .push b :: is => b :: pushedBytes is
  | .sealFrame :: is => pushedBytes is
  | .rdimg _ :: is => pushedBytes is
  | .rdreg _ :: is => pushedBytes is

/-- The word a command leaves in the response register, if it completes and leaves one. -/
def responseTo (i : Instr) (s : State) : Option RspWord :=
  match exec i s with
  | .next t => t.rsp
  | .fault _ => none
  | .refused _ => none

/-- A state R176 lets a claim about a frame rule out. -/
def faulted (s : State) : Bool := s.seqerr || s.ill

/-- The payload bytes the frame holds, in order: IMG[POFF .. POFF+COUNT-1] (R38 item 6, R69). -/
def payload (s : State) : List Byte :=
  (List.range s.count.toNat).map fun i => s.img.read (poff s.mode + i)

/-- Items 1, 2, 4 and 5 of R38, and the canonical form of IMG. Item 3 holds by `Phase`'s type. -/
structure RegInv (s : State) : Prop where
  imgWf : s.img.wf
  countLeCap : s.count.toNat ≤ cap s.mode
  accHighZero : s.mode = .encB → hiByte s.acc = 0
  outlenZero : s.phase ≠ .done → s.outlen = 0
  idleCleared : s.phase = .idle → s.count = 0 ∧ s.acc = 0 ∧ s.trunc = false

/-- Before SEAL every byte outside the payload holds the fill (R36, R152). -/
def OpenFill (s : State) : Prop :=
  ∀ a, a < 8192 → (a < poff s.mode ∨ poff s.mode + s.count.toNat ≤ a) → s.img.read a = 0xFF

/-- A sealed frame holds the layout of its mode over the payload it holds: the emitted image is the
encoder's image (R51, R52, R68), and every byte behind it holds the fill. -/
def SealedLayout (s : State) : Prop :=
  imgBytes s.img s.outlen.toNat = image s.mode (payload s) ∧
    ∀ a, s.outlen.toNat ≤ a → a < 8192 → s.img.read a = 0xFF

/-- The invariant of the reachable states: R38, R36, and the layouts of R51 and R52. Item 7 of R38 is
`accIsChecksum`, its payload read from IMG as item 6 says. -/
structure CoreInv (s : State) : Prop extends RegInv s where
  accIsChecksum : s.acc.toNat = checksum s.mode (payload s)
  openFill : s.phase ≠ .done → OpenFill s
  sealedLayout : s.phase = .done → SealedLayout s

/-- Two states that differ at most in the response register. -/
def sameButRsp (s t : State) : Prop := { s with rsp := none } = { t with rsp := none }

/-- Everything the spec gives the core, without the model's own fields (INVENTORY.md). -/
def sameArch (s t : State) : Prop :=
  { s with edges := [], busy := 0, tick := 0 } = { t with edges := [], busy := 0, tick := 0 }

end Sys2Proof.Safety
end

