-- ==== Sys2Proof/Certificates/Slice0/Obligations.lean ====
section
/-! DEFINITION. The statements for the provers. A next state written as a record update of s says the
whole frame: every field it does not name is unchanged, the model's own fields included. -/

open Sys2Proof Sys2Proof.Machine Sys2Proof.Safety

/-! ### Encoding -/

/-- R75, R77, R83: no bit of an encoding is dropped. -/
def Obligations.DecodeEncodeRoundTrip : Prop :=
  ∀ i : Instr, decode (encode i) = .ok i

/-- R77, R78: each legal word has one meaning, and it is the word of that meaning. -/
def Obligations.EncodeDecodeRoundTrip : Prop :=
  ∀ (w : Word) (i : Instr), decode w = .ok i → encode i = w

/-- R77: the six rows by match and mask, their operand fields, and that no two rows overlap; a word no
row selects is illegal (R78). -/
def Obligations.OpcodeMapSelectsCommands : Prop :=
  ∀ w : Word,
    (w &&& 0xFFFF = 0x0000 → decode w = .ok .nop) ∧
    (w &&& 0xFFFE = 0x2000 → decode w = .ok (.start (if w.getLsbD 0 then .encB else .encA))) ∧
    (w &&& 0xFF00 = 0x4000 → decode w = .ok (.push (w.extractLsb' 0 8))) ∧
    (w &&& 0xFFFF = 0x6000 → decode w = .ok .sealFrame) ∧
    (w &&& 0xE000 = 0x8000 → decode w = .ok (.rdimg (w.extractLsb' 0 13))) ∧
    (w &&& 0xFFFC = 0xA000 →
      ∃ r, decode w = .ok (.rdreg r) ∧ regIndex r = w.extractLsb' 0 2) ∧
    ((∃ i, decode w = .ok i) →
      w &&& 0xFFFF = 0x0000 ∨ w &&& 0xFFFE = 0x2000 ∨ w &&& 0xFF00 = 0x4000 ∨
        w &&& 0xFFFF = 0x6000 ∨ w &&& 0xE000 = 0x8000 ∨ w &&& 0xFFFC = 0xA000) ∧
    List.Pairwise (fun p q : Prop => ¬(p ∧ q))
      [w &&& 0xFFFF = 0x0000, w &&& 0xFFFE = 0x2000, w &&& 0xFF00 = 0x4000,
        w &&& 0xFFFF = 0x6000, w &&& 0xE000 = 0x8000, w &&& 0xFFFC = 0xA000]

/-- R79, R80, R154, R163: exactly the listed words are illegal, and an accepted illegal word sets ILL,
answers 0x0000 when OP = 0b101, and changes nothing else. -/
def Obligations.IllegalWordsOnlySetIll : Prop :=
  ∀ (w : Word) (s : State),
    (0xC000 ≤ w.toNat ↔ w.extractLsb' 13 3 = 0b110 ∨ w.extractLsb' 13 3 = 0b111) ∧
    (0xC000 ≤ w.toNat ∨
        (w.extractLsb' 13 3 = 0b000 ∧ w.extractLsb' 0 13 ≠ 0) ∨
        (w.extractLsb' 13 3 = 0b001 ∧ w.extractLsb' 1 12 ≠ 0) ∨
        (w.extractLsb' 13 3 = 0b010 ∧ w.extractLsb' 8 5 ≠ 0) ∨
        (w.extractLsb' 13 3 = 0b011 ∧ w.extractLsb' 0 13 ≠ 0) ∨
        (w.extractLsb' 13 3 = 0b101 ∧ w.extractLsb' 2 11 ≠ 0) →
      (∃ e, decode w = .error e) ∧
        runWord w s = .next { s with
          ill := true
          rsp := if w.extractLsb' 13 3 = 0b101 then some 0x0000 else s.rsp }) ∧
    (¬(0xC000 ≤ w.toNat ∨
        (w.extractLsb' 13 3 = 0b000 ∧ w.extractLsb' 0 13 ≠ 0) ∨
        (w.extractLsb' 13 3 = 0b001 ∧ w.extractLsb' 1 12 ≠ 0) ∨
        (w.extractLsb' 13 3 = 0b010 ∧ w.extractLsb' 8 5 ≠ 0) ∨
        (w.extractLsb' 13 3 = 0b011 ∧ w.extractLsb' 0 13 ≠ 0) ∨
        (w.extractLsb' 13 3 = 0b101 ∧ w.extractLsb' 2 11 ≠ 0)) →
      ∃ i, decode w = .ok i ∧ runWord w s = exec i s)

/-- Words of 30_encoding.md and 95_test_vectors.md, written out from R75. -/
def Obligations.DecodesWordsOfTheSpec : Prop :=
  decode 0b000_00000_00000_0_0_0 = .ok .nop ∧
  decode 0b001_00000_00000_0_0_0 = .ok (.start .encA) ∧
  decode 0b001_00000_00000_0_0_1 = .ok (.start .encB) ∧
  decode 0b010_00000_10000_0_0_0 = .ok (.push 0x80) ∧
  decode 0b010_00000_11111_1_1_1 = .ok (.push 0xFF) ∧
  decode 0b011_00000_00000_0_0_0 = .ok .sealFrame ∧
  decode 0b100_00000_00000_1_0_0 = .ok (.rdimg 4) ∧
  decode 0b100_11111_11111_1_1_1 = .ok (.rdimg 8191) ∧
  decode 0b101_00000_00000_0_0_0 = .ok (.rdreg .status) ∧
  decode 0b101_00000_00000_0_1_1 = .ok (.rdreg .outlen) ∧
  decode 0b010_00001_00000_0_0_0 = .error .pushBits ∧
  decode 0b101_00000_00000_1_0_0 = .error .rdregBits ∧
  decode 0b110_00000_00000_0_0_0 = .error .reservedOpcode

/-! ### Control -/

/-- R100: NOP, exactly the word 0x0000, leaves the state equal in every phase; any other OP = 0b000 word
is illegal. -/
def Obligations.NopLeavesStateEqual : Prop :=
  encode .nop = 0x0000 ∧ decode 0x0000 = .ok .nop ∧
  (∀ w : Word, w.extractLsb' 13 3 = 0b000 → w ≠ 0x0000 → ∃ e, decode w = .error e) ∧
  ∀ s, exec .nop s = .next s

/-- R102, R104: START opens a fresh frame from every state, in every phase; SEQERR, ILL and RSP are left
as they were. -/
def Obligations.StartOpensFreshFrame : Prop :=
  decode 0x2000 = .ok (.start .encA) ∧ decode 0x2001 = .ok (.start .encB) ∧
  ∀ (m : Mode) (s : State), ∃ t, exec (.start m) s = .next t ∧
    t = { s with
      mode := m, acc := 0x0000, count := 0, outlen := 0, trunc := false, phase := .accum
      img := t.img } ∧
    ∀ a, a < 8192 → t.img.read a = 0xFF

/-- R104, R21: no value of the previous frame survives START: the frame it opens is the same from any two
states that agree on what a frame does not own. -/
def Obligations.StartForgetsPreviousFrame : Prop :=
  ∀ (m : Mode) (s u : State), s.seqerr = u.seqerr → s.ill = u.ill → s.rsp = u.rsp →
    s.edges = u.edges → s.busy = u.busy → s.tick = u.tick →
    ∃ t, exec (.start m) s = .next t ∧ exec (.start m) u = .next t

/-- R105: SEQERR and ILL survive START; of all edges only a reset edge clears them. TRUNC is cleared only
by a reset edge or by an accepted START (R29). -/
def Obligations.StickyBitsStayUntilCleared : Prop :=
  (∀ (m : Mode) (s : State), ∃ t, exec (.start m) s = .next t ∧ t.seqerr = s.seqerr ∧ t.ill = s.ill) ∧
  ∀ s t, step s = .next t →
    ((currentEdge s).rst = true → t.seqerr = false ∧ t.ill = false ∧ t.trunc = false) ∧
    ((currentEdge s).rst = false →
      (s.seqerr = true → t.seqerr = true) ∧ (s.ill = true → t.ill = true) ∧
      (s.trunc = true → t.trunc = false →
        accepts s = true ∧ ∃ m, decode (currentEdge s).cmdData = .ok (.start m)))

/-! ### Accumulate -/

/-- R112, R113, R114, R115: in ACCUM below capacity PUSH stores its byte at POFF(MODE) + COUNT, adds it to
ACC modulo 2^16 (A) or 2^8 (B), and adds 1 to COUNT; everything else is unchanged. -/
def Obligations.PushStoresOneByte : Prop :=
  (poff .encA = 12 ∧ poff .encB = 2 ∧ cap .encA = 8180 ∧ cap .encB = 8189) ∧
  ∀ (b : Byte) (s : State), s.img.wf → s.phase = .accum → s.count.toNat < cap s.mode →
    ∃ t, exec (.push b) s = .next t ∧
      t = { s with img := t.img, acc := t.acc, count := t.count } ∧
      t.count.toNat = s.count.toNat + 1 ∧ t.count.toNat ≤ cap s.mode ∧
      (s.mode = .encA → t.acc.toNat = (s.acc.toNat + b.toNat) % 2 ^ 16) ∧
      (s.mode = .encB → t.acc.toNat = ((s.acc.extractLsb' 0 8).toNat + b.toNat) % 2 ^ 8) ∧
      poff s.mode + s.count.toNat ≤ 8191 ∧
      ∀ a, t.img.read a = if a = poff s.mode + s.count.toNat then b else s.img.read a

/-- R116: at capacity (8180 bytes in mode A, 8189 in mode B) the byte is lost and only TRUNC is set. -/
def Obligations.PushAtCapacityOnlySetsTrunc : Prop :=
  ∀ (b : Byte) (s : State), s.phase = .accum →
    (s.mode = .encA → s.count.toNat = 8180) → (s.mode = .encB → s.count.toNat = 8189) →
    exec (.push b) s = .next { s with trunc := true }

/-- R117, R142, R162: PUSH and SEAL in IDLE or DONE set SEQERR and change nothing else; the other
commands complete in every phase and never set it. -/
def Obligations.WrongPhaseOnlySetsSeqerr : Prop :=
  ∀ s : State,
    (s.phase = .idle ∨ s.phase = .done →
      (∀ b, exec (.push b) s = .next { s with seqerr := true }) ∧
      exec .sealFrame s = .next { s with seqerr := true }) ∧
    (∀ i, (i = .nop ∨ (∃ m, i = .start m) ∨ (∃ a, i = .rdimg a) ∨ (∃ r, i = .rdreg r)) →
      ∃ t, exec i s = .next t ∧ t.seqerr = s.seqerr)

/-- R119: truncating on every addition equals the sum truncated once, and the spec's own example. -/
def Obligations.TruncatingEveryAdditionEqualsOnce : Prop :=
  (∀ (m : Mode) (bs : List Byte),
    (bs.foldl (accAdd m) 0x0000).toNat = (bs.map BitVec.toNat).sum % 2 ^ accWidth m) ∧
  (List.replicate 8180 (0xFF : Byte)).foldl (accAdd .encA) 0x0000 = 0xD40C

/-- R118: after the bytes of one frame ACC is their sum modulo 2^W(MODE), whatever their order, and IMG
holds them in their order. -/
def Obligations.ChecksumIgnoresByteOrder : Prop :=
  ∀ (m : Mode) (bs : List Byte) (s : State), bs.length ≤ cap m →
    ∃ t, runCommands (.start m :: bs.map .push) s = .next t ∧
      t.acc.toNat = (bs.map BitVec.toNat).sum % 2 ^ accWidth m ∧
      (∀ i (h : i < bs.length), t.img.read (poff m + i) = bs[i]) ∧
      ∀ cs : List Byte, bs.Perm cs →
        ∃ u, runCommands (.start m :: cs.map .push) s = .next u ∧ u.acc = t.acc

/-! ### Serialize -/

/-- R131, R132, R133: SEAL in mode A writes the 12 header bytes and OUTLEN = 12 + COUNT; ACC, COUNT and
every byte from 12 on are unchanged. -/
def Obligations.SealWritesHeaderA : Prop :=
  ∀ s : State, s.img.wf → s.phase = .accum → s.mode = .encA → s.count.toNat ≤ 8180 →
    ∃ t, exec .sealFrame s = .next t ∧
      t = { s with img := t.img, outlen := t.outlen, phase := .done } ∧
      t.outlen.toNat = 12 + s.count.toNat ∧ 12 ≤ t.outlen.toNat ∧ t.outlen.toNat ≤ 8192 ∧
      imgBytes t.img 12 =
        [0x00, 0x32, 0x51, 0x04, 0x0C, 0x00, 0x0A, 0x01,
          byteOf 0 s.count.toNat, byteOf 1 s.count.toNat,
          s.acc.extractLsb' 0 8, s.acc.extractLsb' 8 8] ∧
      (∀ a, 12 ≤ a → t.img.read a = s.img.read a) ∧
      readReg .acc t = s.acc ∧
      (s.count.toNat = 8180 →
        t.img.read 8 = 0xF4 ∧ t.img.read 9 = 0x1F ∧ t.outlen.toNat = 8192)

/-- R136, R137, R138, R141: SEAL in mode B writes N+1 big-endian at 0..1, the negated 8-bit checksum at
2+N, and OUTLEN = 8192; every other byte and ACC are unchanged. -/
def Obligations.SealWritesPrefixAndTrailerB : Prop :=
  ∀ s : State, s.img.wf → s.phase = .accum → s.mode = .encB → s.count.toNat ≤ 8189 →
    ∃ t, exec .sealFrame s = .next t ∧
      t = { s with img := t.img, outlen := t.outlen, phase := .done } ∧
      t.outlen.toNat = 8192 ∧
      (∀ a, t.img.read a =
        if a = 0 then byteOf 1 (s.count.toNat + 1)
        else if a = 1 then byteOf 0 (s.count.toNat + 1)
        else if a = 2 + s.count.toNat then
          BitVec.ofNat 8 ((256 - (s.acc.extractLsb' 0 8).toNat) % 256)
        else s.img.read a) ∧
      (s.acc.extractLsb' 0 8 = 0 → t.img.read (2 + s.count.toNat) = 0x00) ∧
      (s.count.toNat = 8189 → t.img.read 0 = 0x1F ∧ t.img.read 1 = 0xFE ∧ 2 + s.count.toNat = 8191)

/-- R134, R139: sealing an empty frame of a reachable state. -/
def Obligations.EmptyFramesSealAsListed : Prop :=
  ∀ s : State, CoreInv s → s.phase = .accum → s.count = 0 →
    ∃ t, exec .sealFrame s = .next t ∧
      (s.mode = .encA → t.outlen = 12 ∧
        emittedImage t = some [0x00, 0x32, 0x51, 0x04, 0x0C, 0x00, 0x0A, 0x01, 0x00, 0x00, 0x00, 0x00]) ∧
      (s.mode = .encB → imgBytes t.img 3 = [0x00, 0x01, 0x00] ∧
        ∀ a, 3 ≤ a → a ≤ 8191 → t.img.read a = 0xFF)

/-- R135, R140: what every sealed frame of a reachable state holds. -/
def Obligations.SealedFramesKeepSourceProperties : Prop :=
  ∀ s : State, CoreInv s → s.phase = .done →
    (s.mode = .encA → imgBytes s.img 8 = [0x00, 0x32, 0x51, 0x04, 0x0C, 0x00, 0x0A, 0x01]) ∧
    (s.mode = .encB →
      ((s.img.read (2 + s.count.toNat)).toNat + (s.acc.extractLsb' 0 8).toNat) % 256 = 0 ∧
      ∀ a, 2 + s.count.toNat < a → a < 8192 → s.img.read a = 0xFF)

/-- R143: a sealed frame changes only by START or reset. -/
def Obligations.SealedFrameCannotChange : Prop :=
  ∀ s : State, s.phase = .done →
    (∀ b, exec (.push b) s = .next { s with seqerr := true }) ∧
    exec .sealFrame s = .next { s with seqerr := true } ∧
    (∀ i, isRead i = true → ∃ t, exec i s = .next t ∧ t = { s with rsp := t.rsp }) ∧
    ∀ t, step s = .next t → (currentEdge s).rst = false →
      (accepts s = true → ∀ m, decode (currentEdge s).cmdData ≠ .ok (.start m)) →
      t.img = s.img ∧ t.mode = s.mode ∧ t.acc = s.acc ∧ t.count = s.count ∧
        t.outlen = s.outlen ∧ t.phase = s.phase ∧ t.trunc = s.trunc

/-! ### Readback -/

/-- R151: RDIMG of every address, in every phase, responds with the zero-extended byte and changes only
RSP; behind the emitted image of a sealed frame that byte is the fill. -/
def Obligations.RdimgRespondsByte : Prop :=
  ∀ (a : ImgAddr) (s : State),
    decode (0x8000 ||| a.setWidth 16) = .ok (.rdimg a) ∧
    ∃ v : RspWord, exec (.rdimg a) s = .next { s with rsp := some v } ∧
      v.extractLsb' 8 8 = 0x00 ∧ v.extractLsb' 0 8 = s.img.read a.toNat ∧ a.toNat ≤ 8191 ∧
      (CoreInv s → s.phase = .done → s.outlen.toNat ≤ a.toNat → v = 0x00FF)

/-- R153, R31: RDREG of each register responds with it and changes only RSP; STATUS field by field. -/
def Obligations.RdregRespondsRegister : Prop :=
  (decode 0xA000 = .ok (.rdreg .status) ∧ decode 0xA001 = .ok (.rdreg .acc) ∧
    decode 0xA002 = .ok (.rdreg .count) ∧ decode 0xA003 = .ok (.rdreg .outlen) ∧
    decode 0xA004 = .error .rdregBits ∧ decode 0xA005 = .error .rdregBits ∧
    decode 0xA006 = .error .rdregBits ∧ decode 0xA007 = .error .rdregBits) ∧
  ∀ s : State,
    (∃ v : RspWord, exec (.rdreg .status) s = .next { s with rsp := some v } ∧
      v.extractLsb' 0 2 = (match s.phase with | .idle => 0b00 | .accum => 0b01 | .done => 0b10) ∧
      v.getLsbD 2 = (s.mode == .encB) ∧ v.getLsbD 3 = s.trunc ∧ v.getLsbD 4 = s.seqerr ∧
      v.getLsbD 5 = s.ill ∧ v.extractLsb' 6 10 = 0) ∧
    exec (.rdreg .acc) s = .next { s with rsp := some s.acc } ∧
    exec (.rdreg .count) s = .next { s with rsp := some (s.count.setWidth 16) } ∧
    exec (.rdreg .outlen) s = .next { s with rsp := some (s.outlen.setWidth 16) } ∧
    (RegInv s → s.mode = .encB → s.acc = 0#8 ++ s.acc.extractLsb' 0 8) ∧
    (RegInv s → s.phase ≠ .done → s.outlen.setWidth 16 = (0x0000 : RspWord))

/-- R60: a read changes only RSP, and repeating it returns the same word, whatever became of the first
response. -/
def Obligations.RepeatedReadsReturnSameWord : Prop :=
  ∀ (i : Instr) (s : State), ((∃ a, i = .rdimg a) ∨ ∃ r, i = .rdreg r) →
    ∃ v, exec i s = .next { s with rsp := some v } ∧
      ∀ r : Option RspWord, exec i { s with rsp := r } = .next { s with rsp := some v }

/-- R152: what RDIMG returns in each phase of a reachable state; only in DONE is there an emitted
image. -/
def Obligations.RdimgReturnsImageOfThePhase : Prop :=
  ∀ s : State, CoreInv s →
    (s.phase = .idle → ∀ a : ImgAddr, responseTo (.rdimg a) s = some 0x00FF) ∧
    (s.phase = .accum → ∀ a : ImgAddr, responseTo (.rdimg a) s =
      if h : poff s.mode ≤ a.toNat ∧ a.toNat - poff s.mode < (payload s).length then
        some ((payload s)[a.toNat - poff s.mode].setWidth 16)
      else some 0x00FF) ∧
    (s.phase = .done → ∃ bs, emittedImage s = some bs ∧ bs = image s.mode (payload s) ∧
      ∀ a : ImgAddr, responseTo (.rdimg a) s =
        if h : a.toNat < bs.length then some (bs[a.toNat].setWidth 16) else some 0x00FF) ∧
    ((emittedImage s).isSome = true ↔ s.phase = .done)

/-- R155: in a reachable state with done = 1, RDREG 3 gives L, and RDIMG 0 .. L-1 give the emitted
image. -/
def Obligations.ReadoutRecoversEmittedImage : Prop :=
  ∀ s : State, CoreInv s → (outputs s).done = true →
    ∃ (L : RspWord) (bs : List Byte), responseTo (.rdreg .outlen) s = some L ∧
      emittedImage s = some bs ∧ bs.length = L.toNat ∧
      ((List.range L.toNat).map fun a => responseTo (.rdimg (BitVec.ofNat 13 a)) s) =
        bs.map (fun b => some (b.setWidth 16)) ∧
      (s.mode = .encA → L.toNat = 12 + s.count.toNat) ∧ (s.mode = .encB → L.toNat = 8192)

/-! ### Status conditions -/

/-- R164: at most one status bit per command, checked in the order ILL, SEQERR, TRUNC. -/
def Obligations.CommandSetsAtMostOneStatusBit : Prop :=
  ∀ (w : Word) (s t : State), runWord w s = .next t →
    (∀ e, decode w = .error e → t.ill = true ∧ t.seqerr = s.seqerr ∧ t.trunc = s.trunc) ∧
    (∀ i, decode w = .ok i → ((∃ b, i = .push b) ∨ i = .sealFrame) → s.phase ≠ .accum →
      t.seqerr = true ∧ t.ill = s.ill ∧ t.trunc = s.trunc) ∧
    (∀ b, decode w = .ok (.push b) → s.phase = .accum → s.count.toNat = cap s.mode →
      t.trunc = true ∧ t.ill = s.ill ∧ t.seqerr = s.seqerr) ∧
    (t.ill = true → s.ill = false → t.seqerr = s.seqerr ∧ t.trunc = s.trunc ∧
      ∃ e, decode w = .error e) ∧
    (t.seqerr = true → s.seqerr = false → t.ill = s.ill ∧ t.trunc = s.trunc ∧
      s.phase ≠ .accum ∧ ((∃ b, decode w = .ok (.push b)) ∨ decode w = .ok .sealFrame)) ∧
    (t.trunc = true → s.trunc = false → t.ill = s.ill ∧ t.seqerr = s.seqerr ∧
      s.phase = .accum ∧ s.count.toNat = cap s.mode ∧ ∃ b, decode w = .ok (.push b))

/-- R160: every command word completes in every state that meets the register invariant. -/
def Obligations.EveryWordCompletes : Prop :=
  ∀ (w : Word) (s : State), RegInv s → ∃ t, runWord w s = .next t

/-- Log 8, the model's choice: the only stops of exec, on addresses R61 says no command forms. -/
def Obligations.OnlyAddressesOutsideTheImageStop : Prop :=
  (∀ (i : Instr) (s : State) (r : Refusal), exec i s ≠ .refused r) ∧
  (∀ (b : Byte) (s : State), s.phase = .accum → s.count.toNat ≠ cap s.mode →
    8192 ≤ poff s.mode + s.count.toNat →
    exec (.push b) s = .fault (.imgAddressOutside (poff s.mode + s.count.toNat))) ∧
  (∀ s : State, s.phase = .accum → s.mode = .encB → 8192 ≤ 2 + s.count.toNat →
    exec .sealFrame s = .fault (.imgAddressOutside (2 + s.count.toNat))) ∧
  ∀ (i : Instr) (s : State) (f : Fault), exec i s = .fault f → ¬RegInv s

/-- R61: the addresses the commands form lie in 0..8191, and no command changes what lies outside. -/
def Obligations.NoCommandLeavesTheImage : Prop :=
  (∀ a : ImgAddr, a.toNat ≤ 8191) ∧
  ∀ s : State, RegInv s →
    (s.count.toNat ≠ cap s.mode → s.mode = .encA → payloadAddr s ≤ 8191) ∧
    (s.count.toNat ≠ cap s.mode → s.mode = .encB → payloadAddr s ≤ 8190) ∧
    (s.mode = .encB → trailerAddr s ≤ 8191) ∧
    ∀ (i : Instr) (t : State), exec i s = .next t → ∀ a, 8192 ≤ a → t.img.read a = s.img.read a

/-! ### Who writes what -/

/-- R24 to R30, R34, R35: each piece of state is written only by the commands the spec names for it. -/
def Obligations.OnlyNamedCommandsWriteEachRegister : Prop :=
  ∀ (i : Instr) (s t : State), exec i s = .next t →
    (t.mode ≠ s.mode → ∃ m, i = .start m) ∧
    (t.acc ≠ s.acc → (∃ m, i = .start m) ∨ ∃ b, i = .push b) ∧
    (t.count ≠ s.count → (∃ m, i = .start m) ∨ ∃ b, i = .push b) ∧
    (t.outlen ≠ s.outlen → (∃ m, i = .start m) ∨ i = .sealFrame) ∧
    (t.phase ≠ s.phase → (∃ m, i = .start m) ∨ i = .sealFrame) ∧
    (t.trunc ≠ s.trunc → (∃ m, i = .start m) ∨ ∃ b, i = .push b) ∧
    (t.seqerr ≠ s.seqerr → (∃ b, i = .push b) ∨ i = .sealFrame) ∧
    t.ill = s.ill ∧
    (t.img ≠ s.img → (∃ m, i = .start m) ∨ (∃ b, i = .push b) ∨ i = .sealFrame) ∧
    (t.rsp ≠ s.rsp → (∃ a, i = .rdimg a) ∨ ∃ r, i = .rdreg r) ∧
    t.edges = s.edges ∧ t.busy = s.busy ∧ t.tick = s.tick

/-- R28: PHASE's encoding, and every way it moves at an edge. -/
def Obligations.PhaseMovesOnlyAsListed : Prop :=
  (phaseBits .idle = 0b00 ∧ phaseBits .accum = 0b01 ∧ phaseBits .done = 0b10 ∧
    ∀ p, phaseBits p ≠ 0b11) ∧
  ∀ s t, step s = .next t →
    ((currentEdge s).rst = true → t.phase = .idle) ∧
    ((currentEdge s).rst = false →
      (∀ m, accepts s = true → decode (currentEdge s).cmdData = .ok (.start m) → t.phase = .accum) ∧
      (accepts s = true → decode (currentEdge s).cmdData = .ok .sealFrame → s.phase = .accum →
        t.phase = .done) ∧
      (t.phase ≠ s.phase → accepts s = true ∧
        ((∃ m, decode (currentEdge s).cmdData = .ok (.start m)) ∨
          (decode (currentEdge s).cmdData = .ok .sealFrame ∧ s.phase = .accum))) ∧
      (t.phase = .idle → s.phase = .idle))

/-- R35: a command sequence observes RSP only through backpressure. Two states that differ only in RSP
run every command to states that differ only in RSP; a read answers with the same word in both, whatever
RSP held, and any other command leaves RSP as it found it. That exec runs on a full RSP at all is the
model's choice (log 10): through step no command meets one (R73). -/
def Obligations.CommandsDoNotReadRsp : Prop :=
  ∀ (i : Instr) (s u t : State), sameButRsp s u → exec i s = .next t →
    ∃ v, exec i u = .next v ∧ sameButRsp t v ∧
      ((∃ a, i = .rdimg a) ∨ (∃ r, i = .rdreg r) → v.rsp = t.rsp) ∧
      (¬((∃ a, i = .rdimg a) ∨ ∃ r, i = .rdreg r) → v.rsp = u.rsp)

/-- R29: no rule reads TRUNC but STATUS's own read, and it changes no byte of the image. -/
def Obligations.TruncIsOnlyInformational : Prop :=
  ∀ (i : Instr) (s t : State) (b : Bool), exec i s = .next t →
    ∃ v, exec i { s with trunc := b } = .next v ∧ v.img = t.img ∧
      { v with trunc := false, rsp := none } = { t with trunc := false, rsp := none } ∧
      (i ≠ .rdreg .status → v.rsp = t.rsp)

/-! ### Reset and the channels -/

/-- R181: an edge with rst = 1 gives the reset state from every state, accepts no command and loses a
pending response. -/
def Obligations.ResetEdgeGivesResetState : Prop :=
  ∀ s : State, (currentEdge s).rst = true →
    (outputs s).cmdReady = false ∧ (outputs s).rspValid = false ∧ accepts s = false ∧
    ∃ t, step s = .next t ∧
      t.mode = .encA ∧ t.acc = 0 ∧ t.count = 0 ∧ t.outlen = 0 ∧ t.phase = .idle ∧
      t.trunc = false ∧ t.seqerr = false ∧ t.ill = false ∧
      (∀ a, a < 8192 → t.img.read a = 0xFF) ∧ t.rsp = none

/-- R39: the values after reset. -/
def Obligations.ResetStateHoldsListedValues : Prop :=
  modeBit State.reset.mode = 0 ∧ State.reset.acc = 0x0000 ∧ State.reset.count = 0 ∧
  State.reset.outlen = 0 ∧ phaseBits State.reset.phase = 0b00 ∧ State.reset.trunc = false ∧
  State.reset.seqerr = false ∧ State.reset.ill = false ∧
  (∀ a, a ≤ 8191 → State.reset.img.read a = 0xFF) ∧ State.reset.rsp = none ∧
  (outputs State.reset).done = false

/-- R72, R78, R186: at an edge that accepts a word, the step is the whole effect of the command the word
decodes to. That the whole effect falls on the accepting edge with LAT's free count after it is the model's
choice (log 3), and so are the list of edges (log 1) and the counter tick (log 4) that the next state moves
on. -/
def Obligations.StepRunsAcceptedCommand : Prop :=
  ∀ (s : State) (e : Edge) (rest : List Edge), s.edges = e :: rest →
    e.rst = false → e.cmdValid = true → (outputs s).cmdReady = true →
    (∀ i, decode e.cmdData = .ok i →
      step s = exec i { s with edges := rest, busy := config.lat s.tick, tick := s.tick + 1 }) ∧
    (∀ x, decode e.cmdData = .error x →
      step s = execIllegal e.cmdData
        { s with edges := rest, busy := config.lat s.tick, tick := s.tick + 1 })

/-- Log 2, the model's way of offering a word: the next step runs exactly it; what it does to busy and tick
is the model's choice too (log 3, log 4). -/
def Obligations.FetchWordRunsAtNextStep : Prop :=
  ∀ (s : State) (w : Nat), w < 65536 →
    step (s.withFetchWord 16 w) = runWord (BitVec.ofNat 16 w)
      { s with rsp := none, busy := config.lat s.tick, tick := s.tick + 1 }

/-- R72: a command is accepted exactly at an edge with rst = 0, cmd_valid = 1 and cmd_ready = 1; an edge
without acceptance changes nothing, except that a pending response may be taken. -/
def Obligations.EdgeWithoutAcceptanceChangesNothing : Prop :=
  ∀ s : State,
    (accepts s = true ↔ (currentEdge s).rst = false ∧ (currentEdge s).cmdValid = true ∧
      (outputs s).cmdReady = true) ∧
    ((currentEdge s).rst = false → accepts s = false →
      ∃ t, step s = .next t ∧
        sameArch t { s with
          rsp := if (outputs s).rspValid = true ∧ (currentEdge s).rspReady = true then none
            else s.rsp })

/-- R72, R192, whatever LAT is: with RSP empty and the host quiet, cmd_ready is 1 again and nothing has
changed. That this takes exactly the s.busy edges LAT leaves rests on the model's reading that an idle core
does not take cmd_ready away (log 11), on its count for LAT (log 3), and on the quiet edges past the end of
the list (log 1); the spec says only that the number is finite. -/
def Obligations.ReadyReturnsAfterLatency : Prop :=
  ∀ s : State, s.rsp = none → (∀ e ∈ s.edges, e.rst = false ∧ e.cmdValid = false) →
    ∃ t, Sys2Proof.core.run s.busy s = .next t ∧ (outputs t).cmdReady = true ∧ sameArch t s

/-- R187: while cmd_ready = 0 the host may change cmd_data and cmd_valid freely: nothing is accepted and
the step does not depend on them. At an accepting edge the word on cmd_data is the one that runs. That its
whole effect falls on that edge with LAT's free count after it is the model's choice (log 3), and so are the
list of edges (log 1) and the counter tick (log 4) that acceptEdge moves on. -/
def Obligations.OnlyTheAcceptedWordCounts : Prop :=
  ∀ (s : State) (e f : Edge) (rest : List Edge), s.edges = e :: rest →
    f.rst = e.rst → f.rspReady = e.rspReady →
    ((outputs s).cmdReady = false →
      accepts s = false ∧ step { s with edges := f :: rest } = step s) ∧
    (accepts s = true → step s = runWord e.cmdData (acceptEdge s))

/-- R73: the response channel. -/
def Obligations.ResponseChannelHoldsOneWord : Prop :=
  (∀ (w : Word) (s t : State), s.rsp = none → runWord w s = .next t →
    (t.rsp.isSome = true ↔ w.extractLsb' 13 3 = 0b100 ∨ w.extractLsb' 13 3 = 0b101)) ∧
  ∀ s : State, (currentEdge s).rst = false →
    ((outputs s).rspValid = true ↔ s.rsp ≠ none) ∧
    (∀ v, s.rsp = some v →
      (outputs s).rspData = v ∧ (outputs s).cmdReady = false ∧
      ∃ t, step s = .next t ∧
        t.rsp = if (currentEdge s).rspReady = true then none else some v)

/-- R190: a host that never takes a pending response leaves the core unable to accept a command, for any
number of edges, with nothing changed. -/
def Obligations.UntakenResponseStallsCore : Prop :=
  ∀ (n : Nat) (s : State), s.rsp ≠ none →
    (∀ e ∈ s.edges, e.rst = false ∧ e.rspReady = false) →
    ∃ t, Sys2Proof.core.run n s = .next t ∧ sameArch t s ∧ (outputs t).cmdReady = false

/-- R37: done is 1 exactly when PHASE = DONE, and START lowers it (R165). -/
def Obligations.DoneFollowsPhase : Prop :=
  (∀ s : State, (outputs s).done = true ↔ s.phase = .done) ∧
  ∀ (m : Mode) (s : State), ∃ t, exec (.start m) s = .next t ∧ (outputs t).done = false

/-! ### Invariants and whole frames -/

/-- R38, R39: the invariant holds after reset. -/
def Obligations.ResetSatisfiesInvariant : Prop := CoreInv State.reset

/-- R38, R36, R51, R52: every edge keeps the invariant of the reachable states. -/
def Obligations.StepKeepsInvariant : Prop :=
  ∀ s t : State, CoreInv s → step s = .next t → CoreInv t

/-- R160: from a state that meets the invariant no run ever stops, however long and whatever the host
drives. -/
def Obligations.RunsNeverStop : Prop :=
  ∀ (n : Nat) (s : State), CoreInv s → ∃ t, Sys2Proof.core.run n s = .next t ∧ CoreInv t

/-- R38 items 6 and 7, R116: after START and any mix of PUSHes and reads the frame holds the pushed bytes
in order, cut at CAP(MODE), ACC is their sum modulo 2^W, and TRUNC says whether a byte was dropped. -/
def Obligations.OpenFrameHoldsPushedBytes : Prop :=
  ∀ (m : Mode) (is : List Instr) (s : State), (∀ i ∈ is, inFrame i = true) →
    ∃ t, runCommands (.start m :: is) s = .next t ∧
      t.phase = .accum ∧ t.mode = m ∧ t.outlen = 0 ∧ t.seqerr = s.seqerr ∧ t.ill = s.ill ∧
      payload t = (pushedBytes is).take (cap m) ∧
      t.acc.toNat = checksum m ((pushedBytes is).take (cap m)) ∧
      t.trunc = decide (cap m < (pushedBytes is).length)

/-- R4, R51, R52, R68: a frame from any state emits the encoder's image of the pushed bytes (cut at
CAP(MODE)), a function of those bytes and the mode alone; the bytes behind it hold the fill. -/
def Obligations.FrameEmitsEncodedImage : Prop :=
  ∀ (m : Mode) (is rs : List Instr) (s : State),
    (∀ i ∈ is, inFrame i = true) → (∀ i ∈ rs, isRead i = true) →
    ∃ t, runCommands (.start m :: is ++ .sealFrame :: rs) s = .next t ∧
      emittedImage t = some (image m ((pushedBytes is).take (cap m))) ∧
      t.outlen.toNat = (image m ((pushedBytes is).take (cap m))).length ∧
      ∀ a, t.outlen.toNat ≤ a → a < 8192 → t.img.read a = 0xFF

/-- R69: the payload of a sealed frame is read back unchanged at its offset. -/
def Obligations.SealedPayloadRoundTrips : Prop :=
  ∀ (m : Mode) (bs : List Byte) (s : State), bs.length ≤ cap m →
    ∃ t, runCommands (frameCommands m bs) s = .next t ∧ t.count.toNat = bs.length ∧
      ∀ i (h : i < bs.length),
        responseTo (.rdimg (BitVec.ofNat 13 (poff m + i))) t = some (bs[i].setWidth 16)

/-- R188: a host that keeps to the protocol never sets SEQERR or ILL. -/
def Obligations.ProtocolNeverSetsErrors : Prop :=
  ∀ (is : List Instr) (s t : State), followsProtocol (s.phase == .accum) is = true →
    runCommands is s = .next t → t.seqerr = s.seqerr ∧ t.ill = s.ill

/-! ### The image buffer -/

/-- Log 7: equal contents are equal data: two canonical memories that read the same everywhere are
equal. -/
def Obligations.CanonicalMemoriesAreExtensional : Prop :=
  ∀ m n : Memory, m.wf → n.wf → (∀ a, m.read a = n.read a) → m = n

/-- R55, R54: put16 in both byte orders, and the order each mode selects. -/
def Obligations.Put16FollowsByteOrder : Prop :=
  (order .encA = .le ∧ order .encB = .be) ∧
  ∀ (m : Memory) (a : Nat) (v : Half), m.wf → a + 1 < 8192 →
    (∀ b, (put16 m a v .le).read b =
      if b = a then v.extractLsb' 0 8 else if b = a + 1 then v.extractLsb' 8 8 else m.read b) ∧
    (∀ b, (put16 m a v .be).read b =
      if b = a then v.extractLsb' 8 8 else if b = a + 1 then v.extractLsb' 0 8 else m.read b)

/-! ### Assembly -/

/-- R83: the word of each line, and that an operand outside its range is rejected, not wrapped. -/
def Obligations.AssemblerRejectsOutOfRange : Prop :=
  assembleLine .nop = some [0x0000] ∧ assembleLine .sealFrame = some [0x6000] ∧
  (∀ n, assembleLine (.start (.num n)) =
    if n < 2 then some [BitVec.ofNat 16 (0x2000 + n)] else none) ∧
  (∀ n, assembleLine (.push n) =
    if n < 256 then some [BitVec.ofNat 16 (0x4000 + n)] else none) ∧
  (∀ n, assembleLine (.rdimg n) =
    if n < 8192 then some [BitVec.ofNat 16 (0x8000 + n)] else none) ∧
  (∀ n, assembleLine (.rdreg (.num n)) =
    if n < 4 then some [BitVec.ofNat 16 (0xA000 + n)] else none) ∧
  assembleLine (.start (.named .encA)) = some [0x2000] ∧
  assembleLine (.start (.named .encB)) = some [0x2001] ∧
  assembleLine (.rdreg (.named .status)) = some [0xA000] ∧
  assembleLine (.rdreg (.named .acc)) = some [0xA001] ∧
  assembleLine (.rdreg (.named .count)) = some [0xA002] ∧
  assembleLine (.rdreg (.named .outlen)) = some [0xA003]

/-- R84: each pseudo-command assembles to the words of its expansion. -/
def Obligations.PseudoCommandsExpand : Prop :=
  assembleLine .startA = assembleLine (.start (.num 0)) ∧
  assembleLine .startB = assembleLine (.start (.num 1)) ∧
  assembleLine .rdstat = assembleLine (.rdreg (.num 0)) ∧
  assembleLine .rdacc = assembleLine (.rdreg (.num 1)) ∧
  assembleLine .rdcount = assembleLine (.rdreg (.num 2)) ∧
  assembleLine .rdlen = assembleLine (.rdreg (.num 3)) ∧
  (∀ bs : List Nat, bs ≠ [] →
    assembleLine (.pushs bs) = (bs.mapM fun b => assembleLine (.push b)).map List.flatten) ∧
  (∀ n, n ≤ 8192 →
    assembleLine (.dump n) = ((List.range n).mapM fun a => assembleLine (.rdimg a)).map List.flatten) ∧
  assembleLine (.dump 0) = some [] ∧
  ∀ n, 8192 < n → assembleLine (.dump n) = none
end

