-- ==== Sys2Proof/Laws/Memory.lean ====
section
/-! SUPPORT. The laws of the image buffer: what a byte reads as after a write, and that every write
keeps the canonical form. -/

namespace Sys2Proof.Machine

@[simp] theorem config_bufBytes : config.bufBytes = 8192 := rfl
@[simp] theorem config_fill : config.fill = 0xFF := rfl
@[simp] theorem config_hdrA : config.hdrA = 12 := rfl
@[simp] theorem config_poffB : config.poffB = 2 := rfl
@[simp] theorem config_outlenB : config.outlenB = 8192 := rfl
@[simp] theorem cap_encA : cap .encA = 8180 := rfl
@[simp] theorem cap_encB : cap .encB = 8189 := rfl
@[simp] theorem poff_encA : poff .encA = 12 := rfl
@[simp] theorem poff_encB : poff .encB = 2 := rfl
@[simp] theorem accWidth_encA : accWidth .encA = 16 := rfl
@[simp] theorem accWidth_encB : accWidth .encB = 8 := rfl
@[simp] theorem order_encA : order .encA = .le := rfl
@[simp] theorem order_encB : order .encB = .be := rfl

namespace Memory

@[simp] theorem read_nil (a : Nat) : read [] a = 0xFF := rfl

theorem read_cons (k : Nat) (v : Byte) (m : Memory) (a : Nat) :
    read ((k, v) :: m) a = if k = a then v else read m a := rfl

@[simp] theorem read_filled (a : Nat) : filled.read a = 0xFF := rfl

theorem wf_nil : wf [] := ⟨List.Pairwise.nil, by simp⟩

@[simp] theorem wf_filled : wf filled := wf_nil

theorem wf_cons_iff (k : Nat) (v : Byte) (m : Memory) :
    wf ((k, v) :: m) ↔ (∀ c ∈ m, k < c.1) ∧ k < 8192 ∧ v ≠ 0xFF ∧ wf m := by
  simp only [wf, List.pairwise_cons, List.mem_cons, forall_eq_or_imp]
  constructor
  · rintro ⟨⟨h1, h2⟩, ⟨h3, h4⟩, h5⟩
    exact ⟨h1, h3, h4, h2, h5⟩
  · rintro ⟨h1, h3, h4, h2, h5⟩
    exact ⟨⟨h1, h2⟩, ⟨h3, h4⟩, h5⟩

/-- An address below every listed one is unlisted. -/
theorem read_of_lt {m : Memory} {a : Nat} (h : ∀ c ∈ m, a < c.1) : m.read a = 0xFF := by
  induction m with
  | nil => rfl
  | cons c m ih =>
    obtain ⟨k, v⟩ := c
    have hk : a < k := h (k, v) (by simp)
    rw [read_cons, if_neg (by omega)]
    exact ih fun c hc => h c (by simp [hc])

/-- A write leaves every other byte alone. -/
theorem read_write_other (m : Memory) {a b : Nat} (v : Byte) (h : b ≠ a) :
    (m.write a v).read b = m.read b := by
  induction m with
  | nil =>
    simp only [write]
    split
    · rfl
    · rw [read_cons, if_neg (by omega)]
  | cons c m ih =>
    obtain ⟨k, x⟩ := c
    simp only [write]
    split
    · split
      · rfl
      · rw [read_cons, if_neg (by omega)]
    · split
      · split
        · rw [read_cons, if_neg (by omega)]
        · rw [read_cons, read_cons, if_neg (by omega), if_neg (by omega)]
      · rw [read_cons, read_cons, ih]

/-- A write is read back. -/
theorem read_write_same {m : Memory} (h : m.wf) (a : Nat) (v : Byte) : (m.write a v).read a = v := by
  induction m with
  | nil =>
    simp only [write]
    split
    · simp_all
    · rw [read_cons, if_pos rfl]
  | cons c m ih =>
    obtain ⟨k, x⟩ := c
    obtain ⟨hk, -, -, hm⟩ := (wf_cons_iff k x m).1 h
    simp only [write]
    split
    · split
      · rw [read_cons, if_neg (by omega), read_of_lt fun c hc => by have := hk c hc; omega]
        simp_all
      · rw [read_cons, if_pos rfl]
    · split
      · split
        · rw [read_of_lt fun c hc => by have := hk c hc; omega]
          simp_all
        · rw [read_cons, if_pos rfl]
      · rw [read_cons, if_neg (by omega), ih hm]

/-- Both cases of a read after a write. -/
theorem read_write {m : Memory} (h : m.wf) (a b : Nat) (v : Byte) :
    (m.write a v).read b = if b = a then v else m.read b := by
  split
  · next hb => rw [hb, read_write_same h]
  · next hb => rw [read_write_other m v hb]

/-- The addresses listed after a write. -/
theorem mem_write {m : Memory} {a : Nat} {v : Byte} {c : Host.Cell} (h : c ∈ m.write a v) :
    c ∈ m ∨ (c = (a, v) ∧ v ≠ 0xFF) := by
  induction m with
  | nil =>
    simp only [write] at h
    split at h <;> simp_all
  | cons d m ih =>
    obtain ⟨k, x⟩ := d
    simp only [write] at h
    split at h
    · split at h <;> simp_all
      tauto
    · split at h
      · split at h <;> simp_all
        tauto
      · rcases List.mem_cons.1 h with h | h
        · simp [h]
        · rcases ih h with h | h
          · simp [h]
          · exact .inr h

/-- A write keeps the canonical form. -/
theorem wf_write {m : Memory} (h : m.wf) {a : Nat} (ha : a < 8192) (v : Byte) : (m.write a v).wf := by
  induction m with
  | nil =>
    simp only [write]
    split
    · exact wf_nil
    · next hv => exact (wf_cons_iff a v []).2 ⟨by simp, ha, hv, wf_nil⟩
  | cons c m ih =>
    obtain ⟨k, x⟩ := c
    obtain ⟨hk, hk8, hx, hm⟩ := (wf_cons_iff k x m).1 h
    simp only [write]
    split
    · next hak =>
      split
      · exact h
      · next hv =>
        refine (wf_cons_iff a v _).2 ⟨?_, ha, hv, h⟩
        intro c hc
        rcases List.mem_cons.1 hc with rfl | hc
        · exact hak
        · have := hk c hc
          omega
    · split
      · next hak =>
        split
        · exact hm
        · next hv => exact (wf_cons_iff a v m).2 ⟨fun c hc => by have := hk c hc; omega, ha, hv, hm⟩
      · refine (wf_cons_iff k x _).2 ⟨?_, hk8, hx, ih hm⟩
        intro c hc
        rcases mem_write hc with hc | ⟨rfl, -⟩
        · exact hk c hc
        · show k < a
          omega

/-- A run of bytes keeps the canonical form. -/
theorem wf_writeBytes {m : Memory} (h : m.wf) (bs : List Byte) {a : Nat} (ha : a + bs.length ≤ 8192) :
    (m.writeBytes a bs).wf := by
  induction bs generalizing m a with
  | nil => exact h
  | cons b bs ih =>
    simp only [List.length_cons] at ha
    exact ih (wf_write h (by omega) b) (by omega)

/-- A run of bytes leaves every byte outside it alone. -/
theorem read_writeBytes_outside (m : Memory) (bs : List Byte) {a b : Nat}
    (h : b < a ∨ a + bs.length ≤ b) : (m.writeBytes a bs).read b = m.read b := by
  induction bs generalizing m a with
  | nil => rfl
  | cons x bs ih =>
    simp only [List.length_cons] at h
    rw [writeBytes, ih _ (by omega), read_write_other _ _ (by omega)]

/-- The i-th byte of a run is read back at its offset. -/
theorem read_writeBytes_inside {m : Memory} (h : m.wf) (bs : List Byte) {a i : Nat}
    (ha : a + bs.length ≤ 8192) (hi : i < bs.length) :
    (m.writeBytes a bs).read (a + i) = bs[i] := by
  induction bs generalizing m a i with
  | nil => simp at hi
  | cons x bs ih =>
    simp only [List.length_cons] at ha hi
    rw [writeBytes]
    cases i with
    | zero => rw [read_writeBytes_outside _ _ (by omega)]; simpa using read_write_same h a x
    | succ i =>
      have := ih (m := m.write a x) (wf_write h (by omega) x) (a := a + 1) (i := i) (by omega) (by omega)
      rw [show a + (i + 1) = a + 1 + i by omega, this, List.getElem_cons_succ]

end Memory

theorem length_fieldBytes (o : ByteOrder) (v : Half) : (fieldBytes o v).length = 2 := by
  cases o <;> rfl

/-- put16 keeps the canonical form. -/
theorem wf_put16 {m : Memory} (h : m.wf) {a : Nat} (ha : a + 2 ≤ 8192) (v : Half) (o : ByteOrder) :
    (put16 m a v o).wf :=
  Memory.wf_writeBytes h _ (by rw [length_fieldBytes]; exact ha)

/-- What put16 leaves at each address. -/
theorem read_put16 {m : Memory} (h : m.wf) {a : Nat} (ha : a + 2 ≤ 8192) (v : Half) (o : ByteOrder)
    (b : Nat) :
    (put16 m a v o).read b =
      if b = a then (match o with | .le => loByte v | .be => hiByte v)
      else if b = a + 1 then (match o with | .le => hiByte v | .be => loByte v)
      else m.read b := by
  have hw := Memory.wf_write h (a := a) (by omega)
  cases o <;> simp only [put16, fieldBytes, Memory.writeBytes, Memory.read_write (hw _),
    Memory.read_write h] <;> split_ifs <;> first | rfl | omega

end Sys2Proof.Machine
end

