-- ==== Sys2Proof/Laws/Arith.lean ====
section
/-! SUPPORT. The ranges of the registers and operands as numerals, for arithmetic over the widths the
configuration record gives, and what the modular adder computes. -/

namespace Sys2Proof.Machine

theorem word_lt (w : Word) : w.toNat < 65536 := w.isLt
theorem rspWord_lt (v : RspWord) : v.toNat < 65536 := v.isLt
theorem imgAddr_lt (a : ImgAddr) : a.toNat < 8192 := a.isLt
theorem acc_lt (a : Acc) : a.toNat < 65536 := a.isLt
theorem count_lt (c : Count) : c.toNat < 16384 := c.isLt
theorem outlen_lt (n : OutLen) : n.toNat < 16384 := n.isLt

/-- acc_add as a sum of numbers truncated to W(m) bits (R114). -/
theorem accAdd_toNat (m : Mode) (acc : Acc) (b : Byte) :
    (accAdd m acc b).toNat = (acc.toNat + b.toNat) % 2 ^ accWidth m := by
  have hb := b.isLt
  simp only [accAdd, BitVec.toNat_setWidth, BitVec.toNat_add]
  cases m
  · simp only [accWidth_encA]; omega
  · simp only [accWidth_encB]; omega

/-- In mode B the sum leaves bits 15..8 zero (R25, R114). -/
theorem hiByte_accAdd_encB (acc : Acc) (b : Byte) : hiByte (accAdd .encB acc b) = 0 := by
  have h : (accAdd .encB acc b).toNat < 256 := by
    rw [accAdd_toNat]
    exact Nat.mod_lt _ (by decide)
  apply BitVec.eq_of_toNat_eq
  simp only [hiByte, BitVec.extractLsb'_toNat, Nat.shiftRight_eq_div_pow]
  rw [Nat.div_eq_of_lt h]
  rfl

end Sys2Proof.Machine
end

