-- ==== Sys2Proof/Laws/State.lean ====
section
/-! SUPPORT. One lemma per field of State per named update: what the update puts there. -/

namespace Sys2Proof.Machine

@[simp] theorem respond_mode (v : RspWord) (s : State) :
    (respond v s).mode = s.mode := rfl
@[simp] theorem respond_acc (v : RspWord) (s : State) :
    (respond v s).acc = s.acc := rfl
@[simp] theorem respond_count (v : RspWord) (s : State) :
    (respond v s).count = s.count := rfl
@[simp] theorem respond_outlen (v : RspWord) (s : State) :
    (respond v s).outlen = s.outlen := rfl
@[simp] theorem respond_phase (v : RspWord) (s : State) :
    (respond v s).phase = s.phase := rfl
@[simp] theorem respond_trunc (v : RspWord) (s : State) :
    (respond v s).trunc = s.trunc := rfl
@[simp] theorem respond_seqerr (v : RspWord) (s : State) :
    (respond v s).seqerr = s.seqerr := rfl
@[simp] theorem respond_ill (v : RspWord) (s : State) :
    (respond v s).ill = s.ill := rfl
@[simp] theorem respond_img (v : RspWord) (s : State) :
    (respond v s).img = s.img := rfl
@[simp] theorem respond_rsp (v : RspWord) (s : State) :
    (respond v s).rsp = some v := rfl
@[simp] theorem respond_edges (v : RspWord) (s : State) :
    (respond v s).edges = s.edges := rfl
@[simp] theorem respond_busy (v : RspWord) (s : State) :
    (respond v s).busy = s.busy := rfl
@[simp] theorem respond_tick (v : RspWord) (s : State) :
    (respond v s).tick = s.tick := rfl

@[simp] theorem setTrunc_mode (s : State) :
    (setTrunc s).mode = s.mode := rfl
@[simp] theorem setTrunc_acc (s : State) :
    (setTrunc s).acc = s.acc := rfl
@[simp] theorem setTrunc_count (s : State) :
    (setTrunc s).count = s.count := rfl
@[simp] theorem setTrunc_outlen (s : State) :
    (setTrunc s).outlen = s.outlen := rfl
@[simp] theorem setTrunc_phase (s : State) :
    (setTrunc s).phase = s.phase := rfl
@[simp] theorem setTrunc_trunc (s : State) :
    (setTrunc s).trunc = true := rfl
@[simp] theorem setTrunc_seqerr (s : State) :
    (setTrunc s).seqerr = s.seqerr := rfl
@[simp] theorem setTrunc_ill (s : State) :
    (setTrunc s).ill = s.ill := rfl
@[simp] theorem setTrunc_img (s : State) :
    (setTrunc s).img = s.img := rfl
@[simp] theorem setTrunc_rsp (s : State) :
    (setTrunc s).rsp = s.rsp := rfl
@[simp] theorem setTrunc_edges (s : State) :
    (setTrunc s).edges = s.edges := rfl
@[simp] theorem setTrunc_busy (s : State) :
    (setTrunc s).busy = s.busy := rfl
@[simp] theorem setTrunc_tick (s : State) :
    (setTrunc s).tick = s.tick := rfl

@[simp] theorem setSeqerr_mode (s : State) :
    (setSeqerr s).mode = s.mode := rfl
@[simp] theorem setSeqerr_acc (s : State) :
    (setSeqerr s).acc = s.acc := rfl
@[simp] theorem setSeqerr_count (s : State) :
    (setSeqerr s).count = s.count := rfl
@[simp] theorem setSeqerr_outlen (s : State) :
    (setSeqerr s).outlen = s.outlen := rfl
@[simp] theorem setSeqerr_phase (s : State) :
    (setSeqerr s).phase = s.phase := rfl
@[simp] theorem setSeqerr_trunc (s : State) :
    (setSeqerr s).trunc = s.trunc := rfl
@[simp] theorem setSeqerr_seqerr (s : State) :
    (setSeqerr s).seqerr = true := rfl
@[simp] theorem setSeqerr_ill (s : State) :
    (setSeqerr s).ill = s.ill := rfl
@[simp] theorem setSeqerr_img (s : State) :
    (setSeqerr s).img = s.img := rfl
@[simp] theorem setSeqerr_rsp (s : State) :
    (setSeqerr s).rsp = s.rsp := rfl
@[simp] theorem setSeqerr_edges (s : State) :
    (setSeqerr s).edges = s.edges := rfl
@[simp] theorem setSeqerr_busy (s : State) :
    (setSeqerr s).busy = s.busy := rfl
@[simp] theorem setSeqerr_tick (s : State) :
    (setSeqerr s).tick = s.tick := rfl

@[simp] theorem setIll_mode (s : State) :
    (setIll s).mode = s.mode := rfl
@[simp] theorem setIll_acc (s : State) :
    (setIll s).acc = s.acc := rfl
@[simp] theorem setIll_count (s : State) :
    (setIll s).count = s.count := rfl
@[simp] theorem setIll_outlen (s : State) :
    (setIll s).outlen = s.outlen := rfl
@[simp] theorem setIll_phase (s : State) :
    (setIll s).phase = s.phase := rfl
@[simp] theorem setIll_trunc (s : State) :
    (setIll s).trunc = s.trunc := rfl
@[simp] theorem setIll_seqerr (s : State) :
    (setIll s).seqerr = s.seqerr := rfl
@[simp] theorem setIll_ill (s : State) :
    (setIll s).ill = true := rfl
@[simp] theorem setIll_img (s : State) :
    (setIll s).img = s.img := rfl
@[simp] theorem setIll_rsp (s : State) :
    (setIll s).rsp = s.rsp := rfl
@[simp] theorem setIll_edges (s : State) :
    (setIll s).edges = s.edges := rfl
@[simp] theorem setIll_busy (s : State) :
    (setIll s).busy = s.busy := rfl
@[simp] theorem setIll_tick (s : State) :
    (setIll s).tick = s.tick := rfl

@[simp] theorem openFrame_mode (m : Mode) (s : State) :
    (openFrame m s).mode = m := rfl
@[simp] theorem openFrame_acc (m : Mode) (s : State) :
    (openFrame m s).acc = 0 := rfl
@[simp] theorem openFrame_count (m : Mode) (s : State) :
    (openFrame m s).count = 0 := rfl
@[simp] theorem openFrame_outlen (m : Mode) (s : State) :
    (openFrame m s).outlen = 0 := rfl
@[simp] theorem openFrame_phase (m : Mode) (s : State) :
    (openFrame m s).phase = .accum := rfl
@[simp] theorem openFrame_trunc (m : Mode) (s : State) :
    (openFrame m s).trunc = false := rfl
@[simp] theorem openFrame_seqerr (m : Mode) (s : State) :
    (openFrame m s).seqerr = s.seqerr := rfl
@[simp] theorem openFrame_ill (m : Mode) (s : State) :
    (openFrame m s).ill = s.ill := rfl
@[simp] theorem openFrame_img (m : Mode) (s : State) :
    (openFrame m s).img = Memory.filled := rfl
@[simp] theorem openFrame_rsp (m : Mode) (s : State) :
    (openFrame m s).rsp = s.rsp := rfl
@[simp] theorem openFrame_edges (m : Mode) (s : State) :
    (openFrame m s).edges = s.edges := rfl
@[simp] theorem openFrame_busy (m : Mode) (s : State) :
    (openFrame m s).busy = s.busy := rfl
@[simp] theorem openFrame_tick (m : Mode) (s : State) :
    (openFrame m s).tick = s.tick := rfl

@[simp] theorem closeFrame_mode (im : Memory) (n : Nat) (s : State) :
    (closeFrame im n s).mode = s.mode := rfl
@[simp] theorem closeFrame_acc (im : Memory) (n : Nat) (s : State) :
    (closeFrame im n s).acc = s.acc := rfl
@[simp] theorem closeFrame_count (im : Memory) (n : Nat) (s : State) :
    (closeFrame im n s).count = s.count := rfl
@[simp] theorem closeFrame_outlen (im : Memory) (n : Nat) (s : State) :
    (closeFrame im n s).outlen = BitVec.ofNat config.outlenBits n := rfl
@[simp] theorem closeFrame_phase (im : Memory) (n : Nat) (s : State) :
    (closeFrame im n s).phase = .done := rfl
@[simp] theorem closeFrame_trunc (im : Memory) (n : Nat) (s : State) :
    (closeFrame im n s).trunc = s.trunc := rfl
@[simp] theorem closeFrame_seqerr (im : Memory) (n : Nat) (s : State) :
    (closeFrame im n s).seqerr = s.seqerr := rfl
@[simp] theorem closeFrame_ill (im : Memory) (n : Nat) (s : State) :
    (closeFrame im n s).ill = s.ill := rfl
@[simp] theorem closeFrame_img (im : Memory) (n : Nat) (s : State) :
    (closeFrame im n s).img = im := rfl
@[simp] theorem closeFrame_rsp (im : Memory) (n : Nat) (s : State) :
    (closeFrame im n s).rsp = s.rsp := rfl
@[simp] theorem closeFrame_edges (im : Memory) (n : Nat) (s : State) :
    (closeFrame im n s).edges = s.edges := rfl
@[simp] theorem closeFrame_busy (im : Memory) (n : Nat) (s : State) :
    (closeFrame im n s).busy = s.busy := rfl
@[simp] theorem closeFrame_tick (im : Memory) (n : Nat) (s : State) :
    (closeFrame im n s).tick = s.tick := rfl

@[simp] theorem storePayload_mode (b : Byte) (s : State) :
    (storePayload b s).mode = s.mode := rfl
@[simp] theorem storePayload_acc (b : Byte) (s : State) :
    (storePayload b s).acc = accAdd s.mode s.acc b := rfl
@[simp] theorem storePayload_count (b : Byte) (s : State) :
    (storePayload b s).count = s.count + 1 := rfl
@[simp] theorem storePayload_outlen (b : Byte) (s : State) :
    (storePayload b s).outlen = s.outlen := rfl
@[simp] theorem storePayload_phase (b : Byte) (s : State) :
    (storePayload b s).phase = s.phase := rfl
@[simp] theorem storePayload_trunc (b : Byte) (s : State) :
    (storePayload b s).trunc = s.trunc := rfl
@[simp] theorem storePayload_seqerr (b : Byte) (s : State) :
    (storePayload b s).seqerr = s.seqerr := rfl
@[simp] theorem storePayload_ill (b : Byte) (s : State) :
    (storePayload b s).ill = s.ill := rfl
@[simp] theorem storePayload_img (b : Byte) (s : State) :
    (storePayload b s).img = s.img.write (payloadAddr s) b := rfl
@[simp] theorem storePayload_rsp (b : Byte) (s : State) :
    (storePayload b s).rsp = s.rsp := rfl
@[simp] theorem storePayload_edges (b : Byte) (s : State) :
    (storePayload b s).edges = s.edges := rfl
@[simp] theorem storePayload_busy (b : Byte) (s : State) :
    (storePayload b s).busy = s.busy := rfl
@[simp] theorem storePayload_tick (b : Byte) (s : State) :
    (storePayload b s).tick = s.tick := rfl

@[simp] theorem passEdge_mode (s : State) :
    (passEdge s).mode = s.mode := rfl
@[simp] theorem passEdge_acc (s : State) :
    (passEdge s).acc = s.acc := rfl
@[simp] theorem passEdge_count (s : State) :
    (passEdge s).count = s.count := rfl
@[simp] theorem passEdge_outlen (s : State) :
    (passEdge s).outlen = s.outlen := rfl
@[simp] theorem passEdge_phase (s : State) :
    (passEdge s).phase = s.phase := rfl
@[simp] theorem passEdge_trunc (s : State) :
    (passEdge s).trunc = s.trunc := rfl
@[simp] theorem passEdge_seqerr (s : State) :
    (passEdge s).seqerr = s.seqerr := rfl
@[simp] theorem passEdge_ill (s : State) :
    (passEdge s).ill = s.ill := rfl
@[simp] theorem passEdge_img (s : State) :
    (passEdge s).img = s.img := rfl
@[simp] theorem passEdge_rsp (s : State) :
    (passEdge s).rsp = s.rsp := rfl
@[simp] theorem passEdge_edges (s : State) :
    (passEdge s).edges = s.edges.tail := rfl
@[simp] theorem passEdge_busy (s : State) :
    (passEdge s).busy = s.busy := rfl
@[simp] theorem passEdge_tick (s : State) :
    (passEdge s).tick = s.tick + 1 := rfl

@[simp] theorem acceptEdge_mode (s : State) :
    (acceptEdge s).mode = s.mode := rfl
@[simp] theorem acceptEdge_acc (s : State) :
    (acceptEdge s).acc = s.acc := rfl
@[simp] theorem acceptEdge_count (s : State) :
    (acceptEdge s).count = s.count := rfl
@[simp] theorem acceptEdge_outlen (s : State) :
    (acceptEdge s).outlen = s.outlen := rfl
@[simp] theorem acceptEdge_phase (s : State) :
    (acceptEdge s).phase = s.phase := rfl
@[simp] theorem acceptEdge_trunc (s : State) :
    (acceptEdge s).trunc = s.trunc := rfl
@[simp] theorem acceptEdge_seqerr (s : State) :
    (acceptEdge s).seqerr = s.seqerr := rfl
@[simp] theorem acceptEdge_ill (s : State) :
    (acceptEdge s).ill = s.ill := rfl
@[simp] theorem acceptEdge_img (s : State) :
    (acceptEdge s).img = s.img := rfl
@[simp] theorem acceptEdge_rsp (s : State) :
    (acceptEdge s).rsp = s.rsp := rfl
@[simp] theorem acceptEdge_edges (s : State) :
    (acceptEdge s).edges = s.edges.tail := rfl
@[simp] theorem acceptEdge_busy (s : State) :
    (acceptEdge s).busy = config.lat s.tick := rfl
@[simp] theorem acceptEdge_tick (s : State) :
    (acceptEdge s).tick = s.tick + 1 := rfl

@[simp] theorem waitEdge_mode (s : State) :
    (waitEdge s).mode = s.mode := rfl
@[simp] theorem waitEdge_acc (s : State) :
    (waitEdge s).acc = s.acc := rfl
@[simp] theorem waitEdge_count (s : State) :
    (waitEdge s).count = s.count := rfl
@[simp] theorem waitEdge_outlen (s : State) :
    (waitEdge s).outlen = s.outlen := rfl
@[simp] theorem waitEdge_phase (s : State) :
    (waitEdge s).phase = s.phase := rfl
@[simp] theorem waitEdge_trunc (s : State) :
    (waitEdge s).trunc = s.trunc := rfl
@[simp] theorem waitEdge_seqerr (s : State) :
    (waitEdge s).seqerr = s.seqerr := rfl
@[simp] theorem waitEdge_ill (s : State) :
    (waitEdge s).ill = s.ill := rfl
@[simp] theorem waitEdge_img (s : State) :
    (waitEdge s).img = s.img := rfl
@[simp] theorem waitEdge_rsp (s : State) :
    (waitEdge s).rsp = if takesResponse s then none else s.rsp := rfl
@[simp] theorem waitEdge_edges (s : State) :
    (waitEdge s).edges = s.edges.tail := rfl
@[simp] theorem waitEdge_busy (s : State) :
    (waitEdge s).busy = s.busy - 1 := rfl
@[simp] theorem waitEdge_tick (s : State) :
    (waitEdge s).tick = s.tick + 1 := rfl

@[simp] theorem resetEdge_mode (s : State) :
    (resetEdge s).mode = .encA := rfl
@[simp] theorem resetEdge_acc (s : State) :
    (resetEdge s).acc = 0 := rfl
@[simp] theorem resetEdge_count (s : State) :
    (resetEdge s).count = 0 := rfl
@[simp] theorem resetEdge_outlen (s : State) :
    (resetEdge s).outlen = 0 := rfl
@[simp] theorem resetEdge_phase (s : State) :
    (resetEdge s).phase = .idle := rfl
@[simp] theorem resetEdge_trunc (s : State) :
    (resetEdge s).trunc = false := rfl
@[simp] theorem resetEdge_seqerr (s : State) :
    (resetEdge s).seqerr = false := rfl
@[simp] theorem resetEdge_ill (s : State) :
    (resetEdge s).ill = false := rfl
@[simp] theorem resetEdge_img (s : State) :
    (resetEdge s).img = [] := rfl
@[simp] theorem resetEdge_rsp (s : State) :
    (resetEdge s).rsp = none := rfl
@[simp] theorem resetEdge_edges (s : State) :
    (resetEdge s).edges = s.edges.tail := rfl
@[simp] theorem resetEdge_busy (s : State) :
    (resetEdge s).busy = config.lat s.tick := rfl
@[simp] theorem resetEdge_tick (s : State) :
    (resetEdge s).tick = s.tick + 1 := rfl

@[simp] theorem offerWord_mode (w : Word) (s : State) :
    (offerWord w s).mode = s.mode := rfl
@[simp] theorem offerWord_acc (w : Word) (s : State) :
    (offerWord w s).acc = s.acc := rfl
@[simp] theorem offerWord_count (w : Word) (s : State) :
    (offerWord w s).count = s.count := rfl
@[simp] theorem offerWord_outlen (w : Word) (s : State) :
    (offerWord w s).outlen = s.outlen := rfl
@[simp] theorem offerWord_phase (w : Word) (s : State) :
    (offerWord w s).phase = s.phase := rfl
@[simp] theorem offerWord_trunc (w : Word) (s : State) :
    (offerWord w s).trunc = s.trunc := rfl
@[simp] theorem offerWord_seqerr (w : Word) (s : State) :
    (offerWord w s).seqerr = s.seqerr := rfl
@[simp] theorem offerWord_ill (w : Word) (s : State) :
    (offerWord w s).ill = s.ill := rfl
@[simp] theorem offerWord_img (w : Word) (s : State) :
    (offerWord w s).img = s.img := rfl
@[simp] theorem offerWord_rsp (w : Word) (s : State) :
    (offerWord w s).rsp = none := rfl
@[simp] theorem offerWord_edges (w : Word) (s : State) :
    (offerWord w s).edges = ⟨false, true, w, false⟩ :: s.edges := rfl
@[simp] theorem offerWord_busy (w : Word) (s : State) :
    (offerWord w s).busy = 0 := rfl
@[simp] theorem offerWord_tick (w : Word) (s : State) :
    (offerWord w s).tick = s.tick := rfl

end Sys2Proof.Machine
end

