-- ==== Sys2Proof/Laws/Exec.lean ====
section
/-! SUPPORT. What each shared operation and each kind of edge can do, said once: the inversion lemmas
the proofs cite instead of unfolding exec and step. -/

namespace Sys2Proof.Machine

/-- A guarded image write ends in its state exactly when its address exists. -/
theorem atImg_eq_next {a : Nat} {t u : State} : atImg a t = .next u ↔ a < 8192 ∧ u = t := by
  unfold atImg
  split
  · next h => simp only at h; simp [h, eq_comm]
  · next h => simp only at h; simp [h]

theorem atImg_of_lt {a : Nat} (t : State) (h : a < 8192) : atImg a t = .next t := by
  rw [atImg_eq_next]; exact ⟨h, rfl⟩

theorem atImg_of_ge {a : Nat} (t : State) (h : 8192 ≤ a) :
    atImg a t = .fault (.imgAddressOutside a) := by
  unfold atImg
  exact if_neg (show ¬a < 8192 by omega)

theorem atImg_ne_refused {a : Nat} {t : State} {r : Refusal} : atImg a t ≠ .refused r := by
  unfold atImg
  split <;> simp

/-- The three ways PUSH ends in a next state (R110). -/
theorem execPush_eq_next {b : Byte} {s t : State} (h : execPush b s = .next t) :
    (s.phase ≠ .accum ∧ t = setSeqerr s) ∨
      (s.phase = .accum ∧ s.count.toNat = cap s.mode ∧ t = setTrunc s) ∨
      (s.phase = .accum ∧ s.count.toNat ≠ cap s.mode ∧ payloadAddr s < 8192 ∧
        t = storePayload b s) := by
  unfold execPush at h
  split at h
  · next hp => simp only [Host.Outcome.next.injEq] at h; exact .inl ⟨hp, h.symm⟩
  · next hp =>
    have hp : s.phase = .accum := by simpa using hp
    split at h
    · next hc => simp only [Host.Outcome.next.injEq] at h; exact .inr (.inl ⟨hp, hc, h.symm⟩)
    · next hc =>
      obtain ⟨ha, rfl⟩ := atImg_eq_next.1 h
      exact .inr (.inr ⟨hp, hc, ha, rfl⟩)

/-- The three ways SEAL ends in a next state (R130). -/
theorem execSeal_eq_next {s t : State} (h : execSeal s = .next t) :
    (s.phase ≠ .accum ∧ t = setSeqerr s) ∨
      (s.phase = .accum ∧ s.mode = .encA ∧ t = sealA s) ∨
      (s.phase = .accum ∧ s.mode = .encB ∧ trailerAddr s < 8192 ∧ t = sealB s) := by
  unfold execSeal at h
  split at h
  · next hp => simp only [Host.Outcome.next.injEq] at h; exact .inl ⟨hp, h.symm⟩
  · next hp =>
    have hp : s.phase = .accum := by simpa using hp
    split at h
    · next hm => simp only [Host.Outcome.next.injEq] at h; exact .inr (.inl ⟨hp, hm, h.symm⟩)
    · next hm =>
      obtain ⟨ha, rfl⟩ := atImg_eq_next.1 h
      exact .inr (.inr ⟨hp, hm, ha, rfl⟩)

/-- Everything a command can do (R100, R102, R110, R130, R151, R153). -/
theorem exec_eq_next {i : Instr} {s t : State} (h : exec i s = .next t) :
    (i = .nop ∧ t = s) ∨ (∃ m, i = .start m ∧ t = openFrame m s) ∨
      (∃ b, i = .push b ∧ execPush b s = .next t) ∨ (i = .sealFrame ∧ execSeal s = .next t) ∨
      (∃ a, i = .rdimg a ∧ t = respond (imgWord a s) s) ∨
      (∃ r, i = .rdreg r ∧ t = respond (readReg r s) s) := by
  cases i with
  | nop => simp only [exec, execNop, Host.Outcome.next.injEq] at h; simp [h]
  | start m => simp only [exec, execStart, Host.Outcome.next.injEq] at h; simp [h]
  | push b => exact .inr (.inr (.inl ⟨b, rfl, h⟩))
  | sealFrame => exact .inr (.inr (.inr (.inl ⟨rfl, h⟩)))
  | rdimg a => simp only [exec, execRdimg, Host.Outcome.next.injEq] at h; simp [h]
  | rdreg r => simp only [exec, execRdreg, Host.Outcome.next.injEq] at h; simp [h]

/-- An illegal word always ends in a next state (R163). -/
theorem execIllegal_eq_next {w : Word} {s t : State} :
    execIllegal w s = .next t ↔
      t = if answersRead w then respond 0x0000 (setIll s) else setIll s := by
  unfold execIllegal
  rw [Host.Outcome.next.injEq, eq_comm]

/-- An accepted word runs the command it decodes to, or sets ILL (R78). -/
theorem runWord_eq_next {w : Word} {s t : State} (h : runWord w s = .next t) :
    (∃ i, decode w = .ok i ∧ exec i s = .next t) ∨
      (∃ e, decode w = .error e ∧ execIllegal w s = .next t) := by
  unfold runWord at h
  split at h
  · next i hd => exact .inl ⟨i, hd, h⟩
  · next e hd => exact .inr ⟨e, hd, h⟩

/-- The three kinds of edge (R72, R73, R181). -/
theorem step_eq_next {s t : State} (h : step s = .next t) :
    ((currentEdge s).rst = true ∧ t = resetEdge s) ∨
      ((currentEdge s).rst = false ∧ accepts s = true ∧
        runWord (currentEdge s).cmdData (acceptEdge s) = .next t) ∨
      ((currentEdge s).rst = false ∧ accepts s = false ∧ t = waitEdge s) := by
  unfold step at h
  split at h
  · next hr => simp only [Host.Outcome.next.injEq] at h; exact .inl ⟨hr, h.symm⟩
  · next hr =>
    have hr : (currentEdge s).rst = false := by simpa using hr
    split at h
    · next ha => exact .inr (.inl ⟨hr, ha, h⟩)
    · next ha =>
      simp only [Host.Outcome.next.injEq] at h
      exact .inr (.inr ⟨hr, by simpa using ha, h.symm⟩)

/-- An edge with neither reset nor acceptance (R72). -/
theorem step_eq_waitEdge {s : State} (hr : (currentEdge s).rst = false) (ha : accepts s = false) :
    step s = .next (waitEdge s) := by
  simp [step, hr, ha]

/-- A run goes on from the next state. -/
theorem run_succ_of_next {s t : State} (n : Nat) (h : step s = .next t) :
    Sys2Proof.core.run (n + 1) s = Sys2Proof.core.run n t := by
  have h' : Sys2Proof.core.step s = .next t := h
  simp only [Host.Core.run, h']

/-- A command is accepted only by a core whose RSP is empty (R73). -/
theorem rsp_none_of_accepts {s : State} (h : accepts s = true) : s.rsp = none := by
  simp only [accepts, cmdReady, Bool.and_eq_true] at h
  simpa using h.2.1.2

end Sys2Proof.Machine
end

