-- ==== Sys2Proof/Laws/PerInstr.lean ====
section
/-! SUPPORT. The family EncodeRow: the encoded word of a command is selected by the row of its own
mnemonic and by no other row of the opcode map (R77). -/

namespace Sys2Proof.Laws.EncodeRow

/-- The rows that select the command's word are its own row alone. -/
def Statement (i : Instr) : Prop :=
  (opTable.filter (·.selects (encode i))).map OpRow.op = [opcodeOf i]

theorem nop : Statement .nop := by unfold Statement; decide

theorem start (m : Mode) : Statement (.start m) := by unfold Statement; cases m <;> decide

theorem push (b : Byte) : Statement (.push b) := by
  unfold Statement
  revert b
  decide +kernel

theorem sealFrame : Statement .sealFrame := by unfold Statement; decide

/-- RDIMG's word is selected by RDIMG's row and by no other. -/
theorem selects_rdimg (a : ImgAddr) (r : OpRow) (h : r ∈ opTable) :
    r.selects (encode (.rdimg a)) = (r.op == .rdimg) := by
  simp only [opTable, List.mem_cons, List.not_mem_nil, or_false] at h
  rcases h with rfl | rfl | rfl | rfl | rfl | rfl
  all_goals simp only [OpRow.selects, encode]
  case inr.inr.inr.inr.inl =>
    rw [beq_iff_eq.2]
    · rfl
    · ext i hi
      interval_cases i <;> simp
  all_goals
    rw [beq_eq_false_iff_ne.2]
    · rfl
    · intro h
      have := congrArg (·.getLsbD 15) h
      have := congrArg (·.getLsbD 13) h
      simp at *

theorem rdimg (a : ImgAddr) : Statement (.rdimg a) := by
  unfold Statement
  rw [List.filter_congr (selects_rdimg a)]
  rfl

theorem rdreg (r : RegName) : Statement (.rdreg r) := by unfold Statement; cases r <;> decide

end Sys2Proof.Laws.EncodeRow
end

