-- ==== Sys2Proof/Tests/Slice0.lean ====
section
/-! SUPPORT. Tests on small states, with the expected results of 95_test_vectors.md (their names stand in
the comments) or worked out from the rules, and a witness for the hypotheses of every statement. -/

namespace Sys2Proof.Tests

open Sys2Proof.Machine Sys2Proof.Safety

/-- A field of the next state, if there is one. -/
def after {α : Type} (o : Host.Outcome State Fault Refusal) (f : State → α) : Option α :=
  match o with
  | .next t => some (f t)
  | .fault _ => none
  | .refused _ => none

/-- An open frame with a given count, accumulator and image. -/
def opened (m : Mode) (count acc : Nat) (img : Memory) : State :=
  { openFrame m State.reset with
    count := BitVec.ofNat 14 count, acc := BitVec.ofNat 16 acc, img := img }

/-- A sealed empty frame. -/
def sealedEmpty : Mode → State
  | .encA => sealA (openFrame .encA State.reset)
  | .encB => sealB (openFrame .encB State.reset)

/-! ### The configuration record -/

/-- The tables of R9 and R10, row by row; LAT is the open value. -/
theorem test_config :
    config.bufBytes = 8192 ∧ config.fill = 0xFF ∧ config.hdrA = 12 ∧ config.poffA = 12 ∧
    config.poffB = 2 ∧ config.capA = 8180 ∧ config.capB = 8189 ∧ config.accWidthA = 16 ∧
    config.accWidthB = 8 ∧ config.sigA = [0x00, 0x32, 0x51, 0x04] ∧ config.hlenA = 0x0C ∧
    config.fwverA = 0x00 ∧ config.eetypeA = 0x0A ∧ config.dtypeA = 0x01 ∧ config.outlenB = 8192 ∧
    config.cmdBits = 16 ∧ config.rspBits = 16 ∧ config.imgAddrBits = 13 ∧ config.countBits = 14 ∧
    config.outlenBits = 14 := by decide

/-! ### The checks of WellFormed refuse -/

theorem test_wf_start_2 : AsmLine.wellFormed (.start (.num 2)) = false := by decide
theorem test_wf_push_256 : AsmLine.wellFormed (.push 256) = false := by decide
theorem test_wf_rdimg_8192 : AsmLine.wellFormed (.rdimg 8192) = false := by decide
theorem test_wf_rdreg_4 : AsmLine.wellFormed (.rdreg (.num 4)) = false := by decide
theorem test_wf_pushs_none : AsmLine.wellFormed (.pushs []) = false := by decide
theorem test_wf_pushs_256 : AsmLine.wellFormed (.pushs [1, 256]) = false := by decide
theorem test_wf_dump_8193 : AsmLine.wellFormed (.dump 8193) = false := by decide
theorem test_wf_word_65536 : AsmLine.wellFormed (.rawWord 65536) = false := by decide

/-! ### Words written out bit by bit from R75 -/

theorem test_decode_nop : decode 0b0000000000000000 = .ok .nop := by decide
theorem test_decode_startA : decode 0b0010000000000000 = .ok (.start .encA) := by decide
theorem test_decode_startB : decode 0b0010000000000001 = .ok (.start .encB) := by decide
theorem test_decode_push : decode 0b0100000010010110 = .ok (.push 0x96) := by decide
theorem test_decode_seal : decode 0b0110000000000000 = .ok .sealFrame := by decide
theorem test_decode_rdimg : decode 0b1001000000000011 = .ok (.rdimg 0x1003) := by decide
theorem test_decode_rdreg_acc : decode 0b1010000000000001 = .ok (.rdreg .acc) := by decide
theorem test_decode_rdreg_count : decode 0b1010000000000010 = .ok (.rdreg .count) := by decide
theorem test_reject_nop_bit0 : decode 0x0001 = .error .nopBits := by decide
theorem test_reject_start_bit1 : decode 0x2002 = .error .startBits := by decide
theorem test_reject_push_bit8 : decode 0x4100 = .error .pushBits := by decide
theorem test_reject_seal_bit0 : decode 0x6001 = .error .sealBits := by decide
theorem test_reject_rdreg_bit3 : decode 0xA008 = .error .rdregBits := by decide
theorem test_reject_op6 : decode 0xC000 = .error .reservedOpcode := by decide
theorem test_reject_op7 : decode 0xFFFF = .error .reservedOpcode := by decide
theorem test_encode_rdimg : encode (.rdimg 13) = 0x800D := by decide
theorem test_decodeTableWord : decodeTableWord 16 0x40FF = some (.push 0xFF) := by decide

/-! ### One command on a small state -/

/-- V-C4 -/
theorem test_start_keeps_errors :
    after (exec (.start .encA) { State.reset with phase := .done, trunc := true, seqerr := true, ill := true })
      statusWord = some 0x0031 := by decide
/-- V-C3 -/
theorem test_start_forgets :
    after (exec (.start .encB) (opened .encA 2 0xBB [(12, 0x55), (13, 0x66)]))
      (fun t => (t.mode, t.acc, t.count, t.img)) = some (.encB, 0, 0, []) := by decide
/-- V-C5 -/
theorem test_nop : exec .nop State.reset = .next State.reset := rfl
/-- V-P1: zero-extension -/
theorem test_push_zero_extends :
    after (exec (.push 0x80) (opened .encA 0 0 [])) (fun t => (t.img, t.acc, t.count)) =
      some ([(12, 0x80)], 0x0080, 1) := by decide
/-- V-P3: 16-bit wrap; the byte 0xFF is the fill, so no entry is listed -/
theorem test_push_wraps_A :
    after (exec (.push 0xFF) (opened .encA 257 0xFFFF [])) (fun t => (t.acc, t.count, t.img.read 269)) =
      some (0x00FE, 258, 0xFF) := by decide
/-- V-P7: 8-bit wrap -/
theorem test_push_wraps_B :
    after (exec (.push 0x01) (opened .encB 1 0xFF [])) (fun t => (t.acc, t.img)) =
      some (0x0000, [(3, 0x01)]) := by decide
/-- V-P9 -/
theorem test_push_truncates_B :
    after (exec (.push 0x12) (opened .encB 8189 3 [])) (fun t => (t.trunc, t.img, t.acc, t.count)) =
      some (true, [], 3, 8189) := by decide
/-- V-P12 -/
theorem test_push_idle : after (exec (.push 0x01) State.reset) (fun t => (t.seqerr, t.count)) =
    some (true, 0) := by decide
/-- V-S2 -/
theorem test_seal_A :
    after (exec .sealFrame (opened .encA 1 0x80 [(12, 0x80)])) (fun t => (imgBytes t.img 13, t.outlen)) =
      some ([0x00, 0x32, 0x51, 0x04, 0x0C, 0x00, 0x0A, 0x01, 0x01, 0x00, 0x80, 0x00, 0x80], 13) := by
  decide
/-- V-S4 -/
theorem test_seal_A_full :
    after (exec .sealFrame (opened .encA 8180 0xD40C [])) (fun t => ((imgBytes t.img 12).drop 8, t.outlen)) =
      some ([0xF4, 0x1F, 0x0C, 0xD4], 8192) := by decide
/-- V-SB2 -/
theorem test_seal_B :
    after (exec .sealFrame (opened .encB 4 0x14 [(2, 0x12), (3, 0x34), (4, 0x56), (5, 0x78)]))
      (fun t => (imgBytes t.img 7, t.outlen)) =
      some ([0x00, 0x05, 0x12, 0x34, 0x56, 0x78, 0xEC], 8192) := by decide
/-- V-SB6 -/
theorem test_seal_B_full :
    after (exec .sealFrame (opened .encB 8189 3 [])) (fun t => (imgBytes t.img 2, t.img.read 8191)) =
      some ([0x1F, 0xFE], 0xFD) := by decide
/-- V-SB3: trailer 0, not 256 -/
theorem test_seal_B_zero_sum :
    after (exec .sealFrame (opened .encB 2 0 [(2, 0x80), (3, 0x80)])) (fun t => imgBytes t.img 5) =
      some [0x00, 0x03, 0x80, 0x80, 0x00] := by decide
/-- V-R2 -/
theorem test_rdimg_reset : responseTo (.rdimg 8191) State.reset = some 0x00FF := by decide
/-- V-R3 on an empty frame: the header-length byte -/
theorem test_rdimg_header : responseTo (.rdimg 4) (sealedEmpty .encA) = some 0x000C := by decide
/-- V-R8 -/
theorem test_rdreg_status : responseTo (.rdreg .status) (sealedEmpty .encB) = some 0x0006 := by decide
/-- V-R11 -/
theorem test_rdreg_outlen : responseTo (.rdreg .outlen) (sealedEmpty .encB) = some 0x2000 := by decide
/-- V-R13 -/
theorem test_illegal_rdreg : after (runWord 0xA004 State.reset) (fun t => (t.ill, t.rsp)) =
    some (true, some 0x0000) := by decide
/-- V-X3 -/
theorem test_illegal_push : after (runWord 0x4100 State.reset) (fun t => (t.ill, t.seqerr, t.rsp)) =
    some (true, false, none) := by decide
/-- R83, R84 -/
theorem test_asm_text : assembleText "PUSHS 1, 0xFF ; two bytes".toList = some [0x4001, 0x40FF] := by decide
/-- R83: rejected, not wrapped -/
theorem test_asm_rejects : assembleText "PUSH 256".toList = none := by decide
/-- R83: a comment line is no command -/
theorem test_asm_comment : assembleText " ; START A".toList = some [] := by decide

/-! ### The channels -/

/-- R72: an offered word is accepted and runs. -/
theorem test_step_runs_offered_word :
    after (step (State.reset.withFetchWord 16 0x2001)) statusWord = some 0x0005 := by decide
/-- R73: while RSP is full a word is not accepted, and the response is taken. -/
theorem test_step_full_rsp :
    after (step { State.reset with busy := 0, rsp := some 7, edges := [⟨false, true, 0x2001, true⟩] })
      (fun t => (t.phase, t.rsp)) = some (.idle, none) := by decide
/-- R181 -/
theorem test_step_reset :
    after (step { opened .encB 1 5 [(2, 5)] with edges := [⟨true, true, 0x40FF, true⟩] })
      (fun t => (t.mode, t.phase, t.acc, t.img)) = some (.encA, .idle, 0, []) := by decide

/-! ### Witnesses: the invariant holds of states of every phase and mode -/

theorem witness_inv_idle : CoreInv State.reset where
  imgWf := Memory.wf_nil
  countLeCap := by decide
  accHighZero := by intro h; cases h
  outlenZero := fun _ => rfl
  idleCleared := fun _ => ⟨rfl, rfl, rfl⟩
  accIsChecksum := rfl
  openFill := fun _ _ _ _ => rfl
  sealedLayout := by intro h; cases h

theorem witness_inv_open (m : Mode) : CoreInv (openFrame m State.reset) where
  imgWf := Memory.wf_nil
  countLeCap := by cases m <;> decide
  accHighZero := fun _ => by simp [hiByte]
  outlenZero := fun _ => rfl
  idleCleared := by intro h; cases h
  accIsChecksum := by cases m <;> decide
  openFill := fun _ _ _ _ => rfl
  sealedLayout := by intro h; cases h

theorem witness_inv_sealedA : CoreInv (sealedEmpty .encA) where
  imgWf := by decide
  countLeCap := by decide
  accHighZero := by intro h; cases h
  outlenZero := by intro h; exact absurd rfl h
  idleCleared := by intro h; cases h
  accIsChecksum := rfl
  openFill := by intro h; exact absurd rfl h
  sealedLayout := fun _ => ⟨by decide, fun a h _ => by
    have h : 12 ≤ a := h
    show Memory.read [(0, 0x00), (1, 0x32), (2, 0x51), (3, 0x04), (4, 0x0C), (5, 0x00), (6, 0x0A),
      (7, 0x01), (8, 0x00), (9, 0x00), (10, 0x00), (11, 0x00)] a = 0xFF
    simp only [Memory.read_cons, Memory.read_nil]
    repeat rw [if_neg (by omega)]⟩

/-- The bytes of a sealed empty frame of mode B. -/
theorem imgBytes_sealedB :
    imgBytes [(0, 0x00), (1, 0x01), (2, 0x00)] 8192 =
      [0x00, 0x01, 0x00] ++ List.replicate 8189 (0xFF : Byte) := by
  apply List.ext_getElem
  · rw [imgBytes, List.length_map, List.length_range, List.length_append, List.length_replicate]
    rfl
  · intro i _ _
    rw [List.getElem_append]
    split
    · next h =>
      simp only [List.length_cons, List.length_nil] at h
      simp only [imgBytes, List.getElem_map, List.getElem_range]
      interval_cases i <;> rfl
    · next h =>
      simp only [List.length_cons, List.length_nil] at h
      simp only [imgBytes, List.getElem_map, List.getElem_range, List.getElem_replicate,
        Memory.read_cons, Memory.read_nil]
      repeat rw [if_neg (by omega)]

theorem witness_inv_sealedB : CoreInv (sealedEmpty .encB) where
  imgWf := by decide
  countLeCap := by decide
  accHighZero := fun _ => by decide
  outlenZero := by intro h; exact absurd rfl h
  idleCleared := by intro h; cases h
  accIsChecksum := rfl
  openFill := by intro h; exact absurd rfl h
  sealedLayout := fun _ => ⟨imgBytes_sealedB, fun a h1 h2 => by
    have h1 : 8192 ≤ a := h1
    omega⟩

/-! ### Witnesses: the hypotheses of each statement, at the boundaries of its clauses -/

/-- EncodeDecodeRoundTrip, OpcodeMapSelectsCommands: a word of each row, at the ends of its operand. -/
theorem witness_rows :
    (0x0000 : Word) &&& 0xFFFF = 0x0000 ∧ (0x2001 : Word) &&& 0xFFFE = 0x2000 ∧
    (0x40FF : Word) &&& 0xFF00 = 0x4000 ∧ (0x6000 : Word) &&& 0xFFFF = 0x6000 ∧
    (0x9FFF : Word) &&& 0xE000 = 0x8000 ∧ (0xA003 : Word) &&& 0xFFFC = 0xA000 ∧
    decode 0x9FFF = .ok (.rdimg 8191) := by decide
/-- IllegalWordsOnlySetIll: each clause of the illegal words, and a legal word. -/
theorem witness_illegal_words :
    0xC000 ≤ (0xC000 : Word).toNat ∧
    ((0x0001 : Word).extractLsb' 13 3 = 0b000 ∧ (0x0001 : Word).extractLsb' 0 13 ≠ 0) ∧
    ((0x2002 : Word).extractLsb' 13 3 = 0b001 ∧ (0x2002 : Word).extractLsb' 1 12 ≠ 0) ∧
    ((0x4100 : Word).extractLsb' 13 3 = 0b010 ∧ (0x4100 : Word).extractLsb' 8 5 ≠ 0) ∧
    ((0x7000 : Word).extractLsb' 13 3 = 0b011 ∧ (0x7000 : Word).extractLsb' 0 13 ≠ 0) ∧
    ((0xBFFF : Word).extractLsb' 13 3 = 0b101 ∧ (0xBFFF : Word).extractLsb' 2 11 ≠ 0) ∧
    ∃ i, decode 0xBFFF.pred = .error i := ⟨by decide, by decide, by decide, by decide, by decide,
      by decide, .rdregBits, by decide⟩
/-- NopLeavesStateEqual: the last word of OP = 0b000. -/
theorem witness_nop_words : (0x1FFF : Word).extractLsb' 13 3 = 0b000 ∧ (0x1FFF : Word) ≠ 0x0000 := by
  decide
/-- StartForgetsPreviousFrame: two states that differ in what a frame owns. -/
theorem witness_start_forgets :
    (opened .encB 3 7 []).seqerr = State.reset.seqerr ∧ (opened .encB 3 7 []).ill = State.reset.ill ∧
    (opened .encB 3 7 []).rsp = State.reset.rsp ∧ (opened .encB 3 7 []).edges = State.reset.edges ∧
    (opened .encB 3 7 []).busy = State.reset.busy ∧ (opened .encB 3 7 []).tick = State.reset.tick :=
  ⟨rfl, rfl, rfl, rfl, rfl, rfl⟩
/-- StickyBitsStayUntilCleared, PhaseMovesOnlyAsListed: an edge on which START clears TRUNC. -/
theorem witness_sticky :
    (∃ t, step (offerWord 0x2000 { State.reset with trunc := true, ill := true }) = .next t ∧
      t.trunc = false ∧ t.ill = true) ∧
    (currentEdge (offerWord 0x2000 State.reset)).rst = false ∧
    accepts (offerWord 0x2000 State.reset) = true := ⟨⟨_, rfl, rfl, rfl⟩, by decide, by decide⟩
/-- StickyBitsStayUntilCleared, ResetEdgeGivesResetState: a reset edge. -/
theorem witness_reset_edge :
    (currentEdge { State.reset with seqerr := true, edges := [⟨true, true, 0x2000, true⟩] }).rst = true ∧
    ∃ t, step { State.reset with seqerr := true, edges := [⟨true, true, 0x2000, true⟩] } = .next t :=
  ⟨rfl, _, rfl⟩
/-- PushStoresOneByte: the first and the last byte of a frame, in both modes. -/
theorem witness_push_stores :
    ((opened .encA 0 0 []).img.wf ∧ (opened .encA 0 0 []).phase = .accum ∧
      (opened .encA 0 0 []).count.toNat < cap (opened .encA 0 0 []).mode) ∧
    ((opened .encA 8179 0 []).img.wf ∧ (opened .encA 8179 0 []).phase = .accum ∧
      (opened .encA 8179 0 []).count.toNat < cap (opened .encA 8179 0 []).mode) ∧
    ((opened .encB 8188 0 [(2, 1)]).img.wf ∧ (opened .encB 8188 0 [(2, 1)]).phase = .accum ∧
      (opened .encB 8188 0 [(2, 1)]).count.toNat < cap (opened .encB 8188 0 [(2, 1)]).mode) := by decide
/-- PushAtCapacityOnlySetsTrunc, in both modes. -/
theorem witness_push_at_capacity :
    ((opened .encA 8180 0 []).phase = .accum ∧
      ((opened .encA 8180 0 []).mode = .encA → (opened .encA 8180 0 []).count.toNat = 8180) ∧
      ((opened .encA 8180 0 []).mode = .encB → (opened .encA 8180 0 []).count.toNat = 8189)) ∧
    ((opened .encB 8189 0 []).phase = .accum ∧
      ((opened .encB 8189 0 []).mode = .encA → (opened .encB 8189 0 []).count.toNat = 8180) ∧
      ((opened .encB 8189 0 []).mode = .encB → (opened .encB 8189 0 []).count.toNat = 8189)) := by
  decide
/-- WrongPhaseOnlySetsSeqerr, SealedFrameCannotChange: IDLE and DONE, and a quiet edge in DONE. -/
theorem witness_wrong_phase :
    State.reset.phase = .idle ∧ (sealedEmpty .encB).phase = .done ∧
    (currentEdge (offerWord 0x6000 (sealedEmpty .encB))).rst = false ∧
    (∃ t, step (offerWord 0x6000 (sealedEmpty .encB)) = .next t) ∧
    ∀ m, decode (currentEdge (offerWord 0x6000 (sealedEmpty .encB))).cmdData ≠ .ok (.start m) :=
  ⟨rfl, rfl, rfl, ⟨_, rfl⟩, fun m => by cases m <;> decide⟩
/-- ChecksumIgnoresByteOrder, SealedPayloadRoundTrips: two orders of one payload below capacity. -/
theorem witness_payload_orders :
    ([0x80, 0x01] : List Byte).length ≤ cap .encA ∧ ([0x80, 0x01] : List Byte).Perm [0x01, 0x80] := by
  decide
/-- SealWritesHeaderA: an empty frame and a full one. -/
theorem witness_seal_A :
    ((opened .encA 0 0 []).img.wf ∧ (opened .encA 0 0 []).phase = .accum ∧
      (opened .encA 0 0 []).mode = .encA ∧ (opened .encA 0 0 []).count.toNat ≤ 8180) ∧
    ((opened .encA 8180 0 []).img.wf ∧ (opened .encA 8180 0 []).phase = .accum ∧
      (opened .encA 8180 0 []).mode = .encA ∧ (opened .encA 8180 0 []).count.toNat ≤ 8180 ∧
      (opened .encA 8180 0 []).count.toNat = 8180) := by decide
/-- SealWritesPrefixAndTrailerB: an empty frame with sum 0, and a full one. -/
theorem witness_seal_B :
    ((opened .encB 0 0 []).img.wf ∧ (opened .encB 0 0 []).phase = .accum ∧
      (opened .encB 0 0 []).mode = .encB ∧ (opened .encB 0 0 []).count.toNat ≤ 8189 ∧
      (opened .encB 0 0 []).acc.extractLsb' 0 8 = 0) ∧
    ((opened .encB 8189 3 []).img.wf ∧ (opened .encB 8189 3 []).phase = .accum ∧
      (opened .encB 8189 3 []).mode = .encB ∧ (opened .encB 8189 3 []).count.toNat = 8189) := by decide
/-- EmptyFramesSealAsListed, RdimgReturnsImageOfThePhase: an open empty frame of each mode. -/
theorem witness_empty_open (m : Mode) :
    CoreInv (openFrame m State.reset) ∧ (openFrame m State.reset).phase = .accum ∧
      (openFrame m State.reset).count = 0 ∧ (openFrame m State.reset).mode = m :=
  ⟨witness_inv_open m, rfl, rfl, rfl⟩
/-- SealedFramesKeepSourceProperties, RdimgReturnsImageOfThePhase, ReadoutRecoversEmittedImage, and the
last clause of RdimgRespondsByte: a sealed frame of each mode; in mode A an address behind the image. -/
theorem witness_sealed :
    (CoreInv (sealedEmpty .encA) ∧ (sealedEmpty .encA).phase = .done ∧ (sealedEmpty .encA).mode = .encA ∧
      (outputs (sealedEmpty .encA)).done = true ∧
      (sealedEmpty .encA).outlen.toNat ≤ (12 : ImgAddr).toNat) ∧
    (CoreInv (sealedEmpty .encB) ∧ (sealedEmpty .encB).phase = .done ∧ (sealedEmpty .encB).mode = .encB ∧
      (outputs (sealedEmpty .encB)).done = true) :=
  ⟨⟨witness_inv_sealedA, rfl, rfl, rfl, by decide⟩, witness_inv_sealedB, rfl, rfl, rfl⟩
/-- RdregRespondsRegister: both premises of its last clauses. -/
theorem witness_rdreg :
    RegInv (openFrame .encB State.reset) ∧ (openFrame .encB State.reset).mode = .encB ∧
      (openFrame .encB State.reset).phase ≠ .done :=
  ⟨(witness_inv_open .encB).toRegInv, rfl, by decide⟩
/-- RepeatedReadsReturnSameWord. -/
theorem witness_read : (∃ a, Instr.rdimg 8191 = .rdimg a) ∨ ∃ r, Instr.rdimg 8191 = .rdreg r :=
  .inl ⟨_, rfl⟩
/-- CommandSetsAtMostOneStatusBit: one run of each clause. -/
theorem witness_status_bits :
    (∃ t, runWord 0x4100 State.reset = .next t ∧ t.ill = true ∧ State.reset.ill = false) ∧
    (∃ t, runWord 0x6000 State.reset = .next t ∧ t.seqerr = true ∧ State.reset.seqerr = false) ∧
    (∃ t, runWord 0x4000 (opened .encA 8180 0 []) = .next t ∧ t.trunc = true ∧
      (opened .encA 8180 0 []).trunc = false) := ⟨⟨_, rfl, rfl, rfl⟩, ⟨_, rfl, rfl, rfl⟩, _, rfl, rfl, rfl⟩
/-- EveryWordCompletes, NoCommandLeavesTheImage: the register invariant, and a command's next state. -/
theorem witness_reg_inv : RegInv State.reset ∧ (∃ t, exec (.start .encB) State.reset = .next t) ∧
    RegInv (openFrame .encB State.reset) ∧
    (openFrame .encB State.reset).count.toNat ≠ cap (openFrame .encB State.reset).mode :=
  ⟨witness_inv_idle.toRegInv, ⟨_, rfl⟩, (witness_inv_open .encB).toRegInv, by decide⟩
/-- OnlyAddressesOutsideTheImageStop: the first addresses outside, in states no run reaches. -/
theorem witness_stops :
    ((opened .encA 8181 0 []).phase = .accum ∧
      (opened .encA 8181 0 []).count.toNat ≠ cap (opened .encA 8181 0 []).mode ∧
      8192 ≤ poff (opened .encA 8181 0 []).mode + (opened .encA 8181 0 []).count.toNat) ∧
    ((opened .encB 8190 0 []).phase = .accum ∧ (opened .encB 8190 0 []).mode = .encB ∧
      8192 ≤ 2 + (opened .encB 8190 0 []).count.toNat) ∧
    exec (.push 1) (opened .encA 8181 0 []) = .fault (.imgAddressOutside 8193) :=
  ⟨by decide, by decide, rfl⟩
/-- OnlyNamedCommandsWriteEachRegister, TruncIsOnlyInformational: a command that completes. -/
theorem witness_exec_next : ∃ t, exec .sealFrame (opened .encA 0 0 []) = .next t ∧
    t.img ≠ (opened .encA 0 0 []).img ∧ t.outlen ≠ (opened .encA 0 0 []).outlen :=
  ⟨_, rfl, by decide, by decide⟩
/-- CommandsDoNotReadRsp: two states that differ in RSP, a command that reads and one that does not. -/
theorem witness_rsp_differs :
    sameButRsp State.reset { State.reset with rsp := some 5 } ∧
      (∃ t, exec (.rdimg 0) State.reset = .next t ∧ t.rsp = some 0x00FF) ∧
      ∃ t, exec .sealFrame State.reset = .next t ∧ t.rsp = none := ⟨rfl, ⟨_, rfl, rfl⟩, _, rfl, rfl⟩
/-- StepRunsAcceptedCommand, OnlyTheAcceptedWordCounts: an accepting edge with a legal word, and one with
an illegal word. -/
theorem witness_accepting :
    ((offerWord 0x40FF State.reset).edges = ⟨false, true, 0x40FF, false⟩ :: State.reset.edges ∧
      (outputs (offerWord 0x40FF State.reset)).cmdReady = true ∧
      accepts (offerWord 0x40FF State.reset) = true ∧ decode 0x40FF = .ok (.push 0xFF)) ∧
    ((outputs (offerWord 0xC000 State.reset)).cmdReady = true ∧
      decode 0xC000 = .error .reservedOpcode) := by
  refine ⟨⟨rfl, ?_, ?_, ?_⟩, ?_, ?_⟩ <;> decide
/-- FetchWordRunsAtNextStep. -/
theorem witness_fetch : 0xFFFF < 65536 := by decide
/-- EdgeWithoutAcceptanceChangesNothing, OnlyTheAcceptedWordCounts: an offer to a core whose RSP is full. -/
theorem witness_not_accepting :
    (currentEdge { offerWord 0x2000 State.reset with rsp := some 1 }).rst = false ∧
    (outputs { offerWord 0x2000 State.reset with rsp := some 1 }).cmdReady = false ∧
    accepts { offerWord 0x2000 State.reset with rsp := some 1 } = false := by decide
/-- ReadyReturnsAfterLatency: any latency, with quiet edges listed. -/
theorem witness_quiet (n : Nat) :
    { State.reset with busy := n, edges := [Edge.quiet] }.rsp = none ∧
    ∀ e ∈ { State.reset with busy := n, edges := [Edge.quiet] }.edges,
      e.rst = false ∧ e.cmdValid = false := ⟨rfl, by simp [Edge.quiet]⟩
/-- ResponseChannelHoldsOneWord: a word that responds, a word that does not, and a full RSP. -/
theorem witness_response :
    (∃ t, runWord 0xA004 State.reset = .next t ∧ t.rsp.isSome = true) ∧
    (∃ t, runWord 0xC000 State.reset = .next t ∧ t.rsp.isSome = false) ∧
    (currentEdge (respond 9 State.reset)).rst = false ∧ (respond 9 State.reset).rsp = some 9 :=
  ⟨⟨_, rfl, rfl⟩, ⟨_, rfl, rfl⟩, rfl, rfl⟩
/-- UntakenResponseStallsCore: a host that offers START and never takes the response. -/
theorem witness_untaken :
    { State.reset with rsp := some 3, edges := [⟨false, true, 0x2000, false⟩] }.rsp ≠ none ∧
    ∀ e ∈ { State.reset with rsp := some 3, edges := [⟨false, true, 0x2000, false⟩] }.edges,
      e.rst = false ∧ e.rspReady = false := by decide
/-- StepKeepsInvariant, RunsNeverStop: the invariant, and an edge that accepts a SEAL. -/
theorem witness_step_inv :
    CoreInv (openFrame .encA State.reset) ∧
      ∃ t, step (offerWord 0x6000 (openFrame .encA State.reset)) = .next t :=
  ⟨witness_inv_open .encA, _, rfl⟩
/-- OpenFrameHoldsPushedBytes, FrameEmitsEncodedImage: pushes with reads between them. -/
theorem witness_frame :
    (∀ i ∈ [Instr.push 1, .rdimg 12, .nop, .push 0xFF], inFrame i = true) ∧
    ∀ i ∈ [Instr.rdreg .outlen, .rdimg 0], isRead i = true := by decide
/-- ProtocolNeverSetsErrors: a frame of the protocol that runs. -/
theorem witness_protocol :
    followsProtocol (State.reset.phase == .accum) [.start .encB, .push 5, .sealFrame] = true ∧
    ∃ t, runCommands [.start .encB, .push 5, .sealFrame] State.reset = .next t := ⟨rfl, _, rfl⟩
/-- CanonicalMemoriesAreExtensional. -/
theorem witness_memories :
    Memory.wf [(0, 1), (8191, 2)] ∧
    Memory.wf (Memory.write (Memory.write [] 8191 2) 0 1) ∧
    ∀ a, Memory.read [(0, 1), (8191, 2)] a = (Memory.write (Memory.write [] 8191 2) 0 1).read a :=
  ⟨by decide, by decide, fun _ => rfl⟩
/-- Put16FollowsByteOrder: the highest field. -/
theorem witness_put16 : Memory.wf [(8190, 0)] ∧ 8190 + 1 < 8192 := by decide
/-- PseudoCommandsExpand: the ends of PUSHS's and DUMP's ranges. -/
theorem witness_pseudo : ([255] : List Nat) ≠ [] ∧ 8192 ≤ 8192 ∧ 8192 < 8193 := by decide

end Sys2Proof.Tests
end

section
/-! PROOFS. Runs of bytes of the image buffer, the payload a frame holds, and its checksum. -/

namespace Sys2Proof.Proofs

open Sys2Proof.Machine Sys2Proof.Safety

/-! ### Runs of bytes -/

/-- The bytes IMG[a .. a+n-1]: the common form of `imgBytes` and `payload`. -/
def bytesFrom (m : Memory) (a n : Nat) : List Byte := (List.range n).map fun i => m.read (a + i)

theorem imgBytes_eq_bytesFrom (m : Memory) (n : Nat) : imgBytes m n = bytesFrom m 0 n := by
  simp only [imgBytes, bytesFrom, Nat.zero_add]

theorem payload_eq_bytesFrom (s : State) : payload s = bytesFrom s.img (poff s.mode) s.count.toNat :=
  rfl

@[simp] theorem length_bytesFrom (m : Memory) (a n : Nat) : (bytesFrom m a n).length = n := by
  simp [bytesFrom]

@[simp] theorem length_imgBytes (m : Memory) (n : Nat) : (imgBytes m n).length = n := by
  simp [imgBytes]

@[simp] theorem length_payload (s : State) : (payload s).length = s.count.toNat := by
  simp [payload]

theorem bytesFrom_add (m : Memory) (a n k : Nat) :
    bytesFrom m a (n + k) = bytesFrom m a n ++ bytesFrom m (a + n) k := by
  simp [bytesFrom, List.range_add, Nat.add_assoc]

theorem bytesFrom_congr {m m' : Memory} {a n : Nat}
    (h : ∀ b, a ≤ b → b < a + n → m.read b = m'.read b) : bytesFrom m a n = bytesFrom m' a n :=
  List.map_congr_left fun i hi => h (a + i) (by omega) (by have := List.mem_range.1 hi; omega)

/-- A run of bytes that was just written. -/
theorem bytesFrom_writeBytes_same {m : Memory} (h : m.wf) {a : Nat} {bs : List Byte}
    (ha : a + bs.length ≤ 8192) : bytesFrom (m.writeBytes a bs) a bs.length = bs :=
  List.ext_getElem (by simp) fun i _ hi => by
    simpa [bytesFrom] using Memory.read_writeBytes_inside h bs ha hi

/-- A run of bytes apart from the written one. -/
theorem bytesFrom_writeBytes_apart (m : Memory) {a b n : Nat} {bs : List Byte}
    (h : a + n ≤ b ∨ b + bs.length ≤ a) :
    bytesFrom (m.writeBytes b bs) a n = bytesFrom m a n :=
  bytesFrom_congr fun _ _ _ => Memory.read_writeBytes_outside m bs (by omega)

theorem bytesFrom_of_fill {m : Memory} {a n : Nat} (h : ∀ b, a ≤ b → b < a + n → m.read b = 0xFF) :
    bytesFrom m a n = List.replicate n 0xFF :=
  List.ext_getElem (by simp) fun i hi _ => by
    have hi : i < n := by simpa using hi
    simpa [bytesFrom] using h (a + i) (by omega) (by omega)

theorem writeBytes_append (m : Memory) (a : Nat) (xs ys : List Byte) :
    m.writeBytes a (xs ++ ys) = (m.writeBytes a xs).writeBytes (a + xs.length) ys := by
  induction xs generalizing m a with
  | nil => rfl
  | cons x xs ih =>
    simp only [List.cons_append, Memory.writeBytes, ih, List.length_cons]
    rw [show a + 1 + xs.length = a + (xs.length + 1) by omega]

/-! ### The payload and its checksum -/

/-- A frame of capacity CAP ends inside the image, in mode B with its trailer (R14, R61). -/
theorem poff_add_cap_le (m : Mode) : poff m + cap m ≤ 8192 := by cases m <;> decide

theorem cap_lt (m : Mode) : cap m < 8190 := by cases m <;> decide

/-- The address PUSH stores at exists while the frame has room (R61). -/
theorem payloadAddr_lt {s : State} (hr : s.count.toNat < cap s.mode) : payloadAddr s < 8192 := by
  have := poff_add_cap_le s.mode
  simp only [payloadAddr]
  omega

@[simp] theorem checksum_nil (m : Mode) : checksum m [] = 0 := by simp [checksum, byteSum]

/-- One more byte in the sum, truncated after every addition (R119). -/
theorem checksum_append_singleton (m : Mode) (bs : List Byte) (b : Byte) :
    checksum m (bs ++ [b]) = (checksum m bs + b.toNat) % 2 ^ accWidth m := by
  simp [checksum, byteSum]

theorem checksum_encB_lt (bs : List Byte) : checksum .encB bs < 256 := Nat.mod_lt _ (by decide)

theorem toNat_count_succ {s : State} (hr : s.count.toNat < cap s.mode) :
    (s.count + 1).toNat = s.count.toNat + 1 := by
  have := cap_lt s.mode
  rw [BitVec.toNat_add]
  exact Nat.mod_eq_of_lt (show s.count.toNat + 1 < 16384 by omega)

/-- PUSH appends its byte to the payload (R115). -/
theorem payload_storePayload {s : State} (h : RegInv s) (hr : s.count.toNat < cap s.mode) (b : Byte) :
    payload (storePayload b s) = payload s ++ [b] := by
  have ha := payloadAddr_lt hr
  have hin := bytesFrom_writeBytes_same h.imgWf (a := payloadAddr s) (bs := [b]) ha
  have hout := bytesFrom_writeBytes_apart s.img (a := poff s.mode) (b := payloadAddr s)
    (n := s.count.toNat) (bs := [b]) (.inl le_rfl)
  calc payload (storePayload b s)
      = bytesFrom (s.img.writeBytes (payloadAddr s) [b]) (poff s.mode) (s.count.toNat + 1) := by
        rw [payload_eq_bytesFrom, storePayload_count, toNat_count_succ hr]; rfl
    _ = payload s ++ [b] := by rw [bytesFrom_add, hout]; exact congrArg _ hin

end Sys2Proof.Proofs
end

section
/-! PROOFS. START, PUSH and the reads establish or keep the invariant `CoreInv`, from which the layout of
a sealed frame follows. -/

namespace Sys2Proof.Proofs

open Sys2Proof.Machine Sys2Proof.Safety

/-- START establishes the invariant from any state (R102, R104). -/
theorem coreInv_openFrame (m : Mode) (s : State) : CoreInv (openFrame m s) where
  imgWf := Memory.wf_filled
  countLeCap := Nat.zero_le _
  accHighZero := fun _ => by simp [hiByte]
  outlenZero := fun _ => rfl
  idleCleared := by simp
  accIsChecksum := by simp [payload]
  openFill := fun _ _ _ _ => rfl
  sealedLayout := by simp

/-- The invariant does not speak of RSP. -/
theorem coreInv_respond {s : State} (h : CoreInv s) (v : RspWord) : CoreInv (respond v s) where
  imgWf := h.imgWf
  countLeCap := h.countLeCap
  accHighZero := h.accHighZero
  outlenZero := h.outlenZero
  idleCleared := h.idleCleared
  accIsChecksum := h.accIsChecksum
  openFill := h.openFill
  sealedLayout := h.sealedLayout

/-- TRUNC is bound to 0 in IDLE only (R38), and PUSH sets it in ACCUM only. -/
theorem coreInv_setTrunc {s : State} (h : CoreInv s) (hp : s.phase = .accum) :
    CoreInv (setTrunc s) where
  imgWf := h.imgWf
  countLeCap := h.countLeCap
  accHighZero := h.accHighZero
  outlenZero := h.outlenZero
  idleCleared := by simp [hp]
  accIsChecksum := h.accIsChecksum
  openFill := h.openFill
  sealedLayout := h.sealedLayout

/-- A PUSH below CAP keeps the invariant (R113 to R115). -/
theorem coreInv_storePayload {s : State} (h : CoreInv s) (hp : s.phase = .accum)
    (hr : s.count.toNat < cap s.mode) (b : Byte) : CoreInv (storePayload b s) where
  imgWf := Memory.wf_write h.imgWf (payloadAddr_lt hr) b
  countLeCap := by
    rw [storePayload_count, toNat_count_succ hr, storePayload_mode]
    omega
  accHighZero := fun hm => by
    rw [storePayload_mode] at hm
    rw [storePayload_acc, hm, hiByte_accAdd_encB]
  outlenZero := h.outlenZero
  idleCleared := by simp [hp]
  accIsChecksum := by
    rw [payload_storePayload h.toRegInv hr, storePayload_mode, checksum_append_singleton,
      ← h.accIsChecksum, storePayload_acc, accAdd_toNat]
  openFill := fun hd a ha hout => by
    rw [storePayload_count, toNat_count_succ hr, storePayload_mode] at hout
    rw [storePayload_img, Memory.read_write_other _ _ (by simp only [payloadAddr]; omega)]
    exact h.openFill hd a ha (by omega)
  sealedLayout := by simp [hp]

end Sys2Proof.Proofs
end

section
/-! PROOFS. SEAL turns the payload an open frame holds into the encoder's image of it (R51, R52, R130). -/

namespace Sys2Proof.Proofs

open Sys2Proof.Machine Sys2Proof.Safety

theorem loByte_eq_byteOf (v : Half) : loByte v = byteOf 0 v.toNat := by
  apply BitVec.eq_of_toNat_eq
  simp [loByte, byteOf]

theorem hiByte_eq_byteOf (v : Half) : hiByte v = byteOf 1 v.toNat := by
  apply BitVec.eq_of_toNat_eq
  simp [hiByte, byteOf, Nat.shiftRight_eq_div_pow]

theorem toNat_count_setWidth (c : Count) : (c.setWidth 16).toNat = c.toNat := by
  have := count_lt c
  rw [BitVec.toNat_setWidth]
  omega

/-- The trailer makes the byte sum of payload and trailer 0 modulo 256 (R137). -/
theorem trailerByte_eq_byteOf {c : Byte} {n : Nat} (h : c.toNat = n) :
    trailerByte c = byteOf 0 (256 - n) := by
  subst h
  apply BitVec.eq_of_toNat_eq
  simp [trailerByte, byteOf]

theorem toNat_closeFrame_outlen (img : Memory) {n : Nat} (s : State) (h : n < 16384) :
    (closeFrame img n s).outlen.toNat = n :=
  Nat.mod_eq_of_lt h

/-- What SEAL leaves of the invariant to show, for either mode: a canonical image with the frame's own
payload in it, laid out as the encoder's image with the fill behind it. -/
theorem coreInv_closeFrame {s : State} {img : Memory} {n : Nat} (h : CoreInv s) (hn : n < 16384)
    (hwf : img.wf)
    (hpay : bytesFrom img (poff s.mode) s.count.toNat = payload s)
    (himg : imgBytes img n = image s.mode (payload s))
    (hfill : ∀ a, n ≤ a → a < 8192 → img.read a = 0xFF) : CoreInv (closeFrame img n s) where
  imgWf := hwf
  countLeCap := h.countLeCap
  accHighZero := h.accHighZero
  outlenZero := by simp
  idleCleared := by simp
  accIsChecksum := (congrArg (checksum s.mode) hpay).symm ▸ h.accIsChecksum
  openFill := by simp
  sealedLayout := fun _ => by
    have hpay : payload (closeFrame img n s) = payload s := hpay
    rw [SealedLayout, toNat_closeFrame_outlen img s hn, hpay]
    exact ⟨himg, hfill⟩

/-! ### Encoder A -/

/-- The header of encoder A over a payload (R51). -/
def headerA (bs : List Byte) : List Byte := (imageA bs).take 12

@[simp] theorem length_headerA (bs : List Byte) : (headerA bs).length = 12 := by
  simp [headerA, imageA]

theorem imageA_eq_headerA_append (bs : List Byte) : imageA bs = headerA bs ++ bs := rfl

section
variable {s : State} (h : CoreInv s) (hm : s.mode = .encA)
include h hm

/-- In mode A SEAL writes the header of the payload and no other byte (R131, R132). -/
theorem sealedImgA_eq : sealedImgA s = s.img.writeBytes 0 (headerA (payload s)) := by
  have hacc : s.acc.toNat = checksum .encA (payload s) := hm ▸ h.accIsChecksum
  have hhead : headerA (payload s) =
      headerConst ++ fieldBytes .le (s.count.setWidth 16) ++ fieldBytes .le s.acc := by
    simp only [fieldBytes, loByte_eq_byteOf, hiByte_eq_byteOf, toNat_count_setWidth, hacc,
      ← length_payload]
    rfl
  rw [hhead, writeBytes_append, writeBytes_append, sealedImgA, hm]
  rfl

theorem payloadBytes_sealedImgA : bytesFrom (sealedImgA s) 12 s.count.toNat = payload s := by
  rw [sealedImgA_eq h hm, bytesFrom_writeBytes_apart _ (.inr (by simp)), payload_eq_bytesFrom, hm,
    poff_encA]

theorem imgBytes_sealedImgA : imgBytes (sealedImgA s) (12 + s.count.toNat) = imageA (payload s) := by
  have hhead : bytesFrom (sealedImgA s) 0 12 = headerA (payload s) := by
    rw [sealedImgA_eq h hm]
    simpa using bytesFrom_writeBytes_same h.imgWf (a := 0) (bs := headerA (payload s)) (by simp)
  rw [imgBytes_eq_bytesFrom, bytesFrom_add, Nat.zero_add, hhead, payloadBytes_sealedImgA h hm,
    imageA_eq_headerA_append]

theorem coreInv_sealA (hp : s.phase = .accum) : CoreInv (sealA s) := by
  have hcap : s.count.toNat ≤ 8180 := by simpa [hm] using h.countLeCap
  refine coreInv_closeFrame h (show 12 + s.count.toNat < 16384 by omega) ?wf ?payload ?layout ?fill
  case wf =>
    rw [sealedImgA_eq h hm]
    exact Memory.wf_writeBytes h.imgWf _ (by simp)
  case payload => rw [hm, poff_encA, payloadBytes_sealedImgA h hm]
  case layout => rw [hm, config_hdrA, imgBytes_sealedImgA h hm, image]
  case fill =>
    intro a hle hlt
    rw [config_hdrA] at hle
    rw [sealedImgA_eq h hm, Memory.read_writeBytes_outside _ _ (.inr (by simp; omega))]
    exact h.openFill (by simp [hp]) a hlt (.inr (by simpa [hm] using hle))

theorem payload_sealA : payload (sealA s) = payload s := by
  simpa [payload_eq_bytesFrom, sealA, hm] using payloadBytes_sealedImgA h hm

end

/-! ### Encoder B -/

/-- The length field of encoder B over a payload (R52). -/
def lengthFieldB (bs : List Byte) : List Byte := [byteOf 1 (bs.length + 1), byteOf 0 (bs.length + 1)]

/-- The trailer of encoder B over a payload (R52, R137). -/
def trailerB (bs : List Byte) : List Byte := [byteOf 0 (256 - checksum .encB bs)]

@[simp] theorem length_lengthFieldB (bs : List Byte) : (lengthFieldB bs).length = 2 := rfl

@[simp] theorem length_trailerB (bs : List Byte) : (trailerB bs).length = 1 := rfl

theorem imageB_eq_append (bs : List Byte) :
    imageB bs = lengthFieldB bs ++ bs ++ trailerB bs ++ List.replicate (8192 - (3 + bs.length)) 0xFF := rfl

theorem wf_lengthFieldB_written {s : State} (h : CoreInv s) :
    (s.img.writeBytes 0 (lengthFieldB (payload s))).wf :=
  Memory.wf_writeBytes h.imgWf _ (by simp)

section
variable {s : State} (h : CoreInv s) (hm : s.mode = .encB)
include h hm

/-- In mode B SEAL writes the length field and the trailer, and no other byte (R136). -/
theorem sealedImgB_eq : sealedImgB s =
    (s.img.writeBytes 0 (lengthFieldB (payload s))).writeBytes (2 + s.count.toNat)
      (trailerB (payload s)) := by
  have hacc : s.acc.toNat = checksum .encB (payload s) := hm ▸ h.accIsChecksum
  have hlo : (loByte s.acc).toNat = checksum .encB (payload s) := by
    rw [loByte, BitVec.extractLsb'_toNat, hacc]
    exact Nat.mod_eq_of_lt (checksum_encB_lt (payload s))
  have hlen : (s.count.setWidth 16 + 1 : Half).toNat = s.count.toNat + 1 := by
    have := count_lt s.count
    rw [BitVec.toNat_add, toNat_count_setWidth]
    exact Nat.mod_eq_of_lt (by simp; omega)
  rw [sealedImgB, trailerByte_eq_byteOf hlo, hm, order_encB, put16, fieldBytes, loByte_eq_byteOf,
    hiByte_eq_byteOf, hlen, lengthFieldB, length_payload]
  rfl

theorem count_le_of_encB : s.count.toNat ≤ 8189 := by simpa [hm] using h.countLeCap

theorem payloadBytes_sealedImgB : bytesFrom (sealedImgB s) 2 s.count.toNat = payload s := by
  rw [sealedImgB_eq h hm, bytesFrom_writeBytes_apart _ (.inl le_rfl),
    bytesFrom_writeBytes_apart _ (.inr (by simp)), payload_eq_bytesFrom, hm, poff_encB]

/-- The bytes behind the trailer still hold the fill (R36). -/
theorem read_sealedImgB_behind (hp : s.phase = .accum) {a : Nat} (hle : 3 + s.count.toNat ≤ a)
    (hlt : a < 8192) : (sealedImgB s).read a = 0xFF := by
  rw [sealedImgB_eq h hm, Memory.read_writeBytes_outside _ _ (.inr (by simp; omega)),
    Memory.read_writeBytes_outside _ _ (.inr (by simp; omega))]
  exact h.openFill (by simp [hp]) a hlt (.inr (by rw [hm, poff_encB]; omega))

theorem imgBytes_sealedImgB (hp : s.phase = .accum) :
    imgBytes (sealedImgB s) 8192 = imageB (payload s) := by
  have hcap := count_le_of_encB h hm
  have hlenField : bytesFrom (sealedImgB s) 0 2 = lengthFieldB (payload s) := by
    rw [sealedImgB_eq h hm, bytesFrom_writeBytes_apart _ (.inl (by omega))]
    exact bytesFrom_writeBytes_same h.imgWf (by simp)
  have htrailer : bytesFrom (sealedImgB s) (2 + s.count.toNat) 1 = trailerB (payload s) := by
    rw [sealedImgB_eq h hm]
    exact bytesFrom_writeBytes_same (wf_lengthFieldB_written h) (by simp; omega)
  have hbehind : bytesFrom (sealedImgB s) (2 + s.count.toNat + 1) (8192 - (3 + s.count.toNat)) =
      List.replicate (8192 - (3 + s.count.toNat)) 0xFF :=
    bytesFrom_of_fill fun a _ _ => read_sealedImgB_behind h hm hp (by omega) (by omega)
  calc imgBytes (sealedImgB s) 8192
      = bytesFrom (sealedImgB s) 0 (2 + s.count.toNat + 1 + (8192 - (3 + s.count.toNat))) := by
        rw [imgBytes_eq_bytesFrom]
        congr 1
        omega
    _ = imageB (payload s) := by
        simp only [bytesFrom_add, Nat.zero_add, hlenField, payloadBytes_sealedImgB h hm, htrailer,
          hbehind, imageB_eq_append, length_payload]

theorem coreInv_sealB (hp : s.phase = .accum) : CoreInv (sealB s) := by
  have hcap := count_le_of_encB h hm
  refine coreInv_closeFrame h (by decide) ?wf ?payload ?layout ?fill
  case wf =>
    rw [sealedImgB_eq h hm]
    exact Memory.wf_writeBytes (wf_lengthFieldB_written h) _ (by simp; omega)
  case payload => rw [hm, poff_encB, payloadBytes_sealedImgB h hm]
  case layout => rw [hm, config_outlenB, imgBytes_sealedImgB h hm hp, image]
  case fill =>
    intro a hle hlt
    rw [config_outlenB] at hle
    omega

theorem payload_sealB : payload (sealB s) = payload s := by
  simpa [payload_eq_bytesFrom, sealB, hm] using payloadBytes_sealedImgB h hm

end

/-! ### Both encoders -/

/-- SEAL closes an open frame: it completes, keeps the invariant, and leaves mode and payload. -/
theorem exec_sealFrame_of_accum {s : State} (h : CoreInv s) (hp : s.phase = .accum) :
    ∃ t, exec .sealFrame s = .next t ∧ CoreInv t ∧ t.phase = .done ∧ t.mode = s.mode ∧
      payload t = payload s := by
  cases hm : s.mode with
  | encA =>
    exact ⟨sealA s, by simp [exec, execSeal, hp, hm], coreInv_sealA h hm hp, rfl, hm,
      payload_sealA h hm⟩
  | encB =>
    have hcap := count_le_of_encB h hm
    have haddr : trailerAddr s < 8192 := show 2 + s.count.toNat < 8192 by omega
    exact ⟨sealB s, by simp [exec, execSeal, hp, hm, atImg_of_lt _ haddr], coreInv_sealB h hm hp, rfl,
      hm, payload_sealB h hm⟩

end Sys2Proof.Proofs
end

section
/-! PROOFS. A whole frame as a sequence of commands: START, PUSHes with reads between them, SEAL, reads. -/

namespace Sys2Proof.Proofs

open Sys2Proof.Machine Sys2Proof.Safety

/-! ### Sequences of commands -/

theorem runCommands_cons_of_next {i : Instr} {s t : State} (h : exec i s = .next t) (is : List Instr) :
    runCommands (i :: is) s = runCommands is t := by
  rw [runCommands, h]

theorem runCommands_append_of_next {is : List Instr} {s t : State} (h : runCommands is s = .next t)
    (js : List Instr) : runCommands (is ++ js) s = runCommands js t := by
  induction is generalizing s with
  | nil =>
    simp only [runCommands, Host.Outcome.next.injEq] at h
    rw [List.nil_append, h]
  | cons i is ih =>
    cases he : exec i s with
    | next u =>
      rw [runCommands_cons_of_next he] at h
      rw [List.cons_append, runCommands_cons_of_next he, ih h]
    | fault r => simp [runCommands, he] at h
    | refused r => simp [runCommands, he] at h

/-- Reads change nothing but RSP (R60, R100). -/
theorem runCommands_reads {rs : List Instr} (h : ∀ i ∈ rs, isRead i = true) (s : State) :
    ∃ v, runCommands rs s = .next { s with rsp := v } := by
  induction rs generalizing s with
  | nil => exact ⟨s.rsp, rfl⟩
  | cons i rs ih =>
    obtain ⟨hi, hrs⟩ := List.forall_mem_cons.1 h
    cases i with
    | nop => exact ih hrs s
    | rdimg a => exact ih hrs (respond (imgWord a s) s)
    | rdreg r => exact ih hrs (respond (readReg r s) s)
    | start m => simp [isRead] at hi
    | push b => simp [isRead] at hi
    | sealFrame => simp [isRead] at hi

/-! ### The open frame -/

/-- The state of an open frame of mode m into which the bytes bs have been pushed: it holds them cut at
CAP(m), and TRUNC says whether one was dropped (R38, R116). -/
structure OpenHolds (m : Mode) (bs : List Byte) (s : State) : Prop extends CoreInv s where
  phaseAccum : s.phase = .accum
  modeEq : s.mode = m
  payloadEq : payload s = bs.take (cap m)
  truncEq : s.trunc = decide (cap m < bs.length)

theorem openHolds_openFrame (m : Mode) (s : State) : OpenHolds m [] (openFrame m s) where
  toCoreInv := coreInv_openFrame m s
  phaseAccum := rfl
  modeEq := rfl
  payloadEq := by simp [payload]
  truncEq := by simp

theorem openHolds_respond {m : Mode} {bs : List Byte} {s : State} (h : OpenHolds m bs s) (v : RspWord) :
    OpenHolds m bs (respond v s) where
  toCoreInv := coreInv_respond h.toCoreInv v
  phaseAccum := h.phaseAccum
  modeEq := h.modeEq
  payloadEq := h.payloadEq
  truncEq := h.truncEq

theorem OpenHolds.count_eq_min {m : Mode} {bs : List Byte} {s : State} (h : OpenHolds m bs s) :
    s.count.toNat = min (cap m) bs.length := by
  rw [← length_payload, h.payloadEq, List.length_take]

/-- PUSH on an open frame: the byte is appended below CAP and dropped at CAP (R110). -/
theorem exec_push_of_openHolds {m : Mode} {bs : List Byte} {s : State} (h : OpenHolds m bs s) (b : Byte) :
    ∃ t, exec (.push b) s = .next t ∧ OpenHolds m (bs ++ [b]) t := by
  have hcount := h.count_eq_min
  have hp := h.phaseAccum
  have hm := h.modeEq
  by_cases hfull : cap m ≤ bs.length
  · refine ⟨setTrunc s, by simp [exec, execPush, hp, hm, hcount, hfull], ?_⟩
    exact {
      toCoreInv := coreInv_setTrunc h.toCoreInv hp
      phaseAccum := hp
      modeEq := hm
      payloadEq := by rw [List.take_append_of_le_length hfull]; exact h.payloadEq
      truncEq := by simp; omega }
  · have hr : s.count.toNat < cap s.mode := by rw [hm]; omega
    refine ⟨storePayload b s,
      by simp [exec, execPush, hp, hr.ne, atImg_of_lt _ (payloadAddr_lt hr)], ?_⟩
    exact {
      toCoreInv := coreInv_storePayload h.toCoreInv hp hr b
      phaseAccum := hp
      modeEq := hm
      payloadEq := by
        rw [payload_storePayload h.toRegInv hr, h.payloadEq, List.take_of_length_le (by omega),
          List.take_of_length_le (by simp; omega)]
      truncEq := by rw [storePayload_trunc, h.truncEq]; simp; omega }

/-- PUSHes and reads complete on an open frame, and it then holds the pushed bytes too (R188). -/
theorem runCommands_inFrame {is : List Instr} (hi : ∀ i ∈ is, inFrame i = true) {m : Mode}
    {bs : List Byte} {s : State} (h : OpenHolds m bs s) :
    ∃ t, runCommands is s = .next t ∧ OpenHolds m (bs ++ pushedBytes is) t := by
  induction is generalizing bs s with
  | nil => exact ⟨s, rfl, by simpa [pushedBytes] using h⟩
  | cons i is ih =>
    obtain ⟨hi, his⟩ := List.forall_mem_cons.1 hi
    cases i with
    | nop => exact ih his h
    | rdimg a => exact ih his (openHolds_respond h _)
    | rdreg r => exact ih his (openHolds_respond h _)
    | push b =>
      obtain ⟨u, hu, hopen⟩ := exec_push_of_openHolds h b
      rw [runCommands_cons_of_next hu, pushedBytes, List.append_cons]
      exact ih his hopen
    | start m => simp [inFrame] at hi
    | sealFrame => simp [inFrame] at hi

/-! ### The sealed frame -/

/-- Settles O47: START opens an empty frame whatever the state was, the PUSHes fill it, SEAL brings it to
the layout the invariant `CoreInv` states of a sealed frame, and the reads after it leave it. -/
theorem frameEmitsEncodedImage : Obligations.FrameEmitsEncodedImage := by
  intro m is rs s his hrs
  obtain ⟨u, hu, hopen⟩ := runCommands_inFrame his (openHolds_openFrame m s)
  rw [List.nil_append] at hopen
  obtain ⟨t, ht, hinv, hdone, hmode, hpay⟩ := exec_sealFrame_of_accum hopen.toCoreInv hopen.phaseAccum
  obtain ⟨v, hv⟩ := runCommands_reads hrs t
  obtain ⟨himg, hfill⟩ := hinv.sealedLayout hdone
  rw [hmode, hopen.modeEq, hpay, hopen.payloadEq] at himg
  have hstart : runCommands (.start m :: is) s = .next u :=
    (runCommands_cons_of_next (t := openFrame m s) rfl is).trans hu
  refine ⟨{ t with rsp := v }, ?run, ?emitted, ?length, hfill⟩
  case run => rw [runCommands_append_of_next hstart, runCommands_cons_of_next ht, hv]
  case emitted => rw [emittedImage, if_pos hdone, himg]
  case length => rw [← himg, length_imgBytes]

end Sys2Proof.Proofs
end

section
/-! PROOFS. Everything a command that completes can do, as one case per branch of its pseudocode. -/

namespace Sys2Proof.Proofs

open Sys2Proof.Machine Sys2Proof.Safety

/-- `Effect i s t`: command i takes state s to state t, by the branch the constructor names (R100, R102,
R110, R130, R151, R153). -/
inductive Effect : Instr → State → State → Prop
  | nop (s : State) : Effect .nop s s
  | start (m : Mode) (s : State) : Effect (.start m) s (openFrame m s)
  | pushOutsideAccum (b : Byte) {s : State} (hp : s.phase ≠ .accum) : Effect (.push b) s (setSeqerr s)
  | pushAtCap (b : Byte) {s : State} (hp : s.phase = .accum) (hc : s.count.toNat = cap s.mode) :
      Effect (.push b) s (setTrunc s)
  | pushStores (b : Byte) {s : State} (hp : s.phase = .accum) (hc : s.count.toNat ≠ cap s.mode)
      (ha : payloadAddr s < 8192) : Effect (.push b) s (storePayload b s)
  | sealOutsideAccum {s : State} (hp : s.phase ≠ .accum) : Effect .sealFrame s (setSeqerr s)
  | sealA {s : State} (hp : s.phase = .accum) (hm : s.mode = .encA) : Effect .sealFrame s (sealA s)
  | sealB {s : State} (hp : s.phase = .accum) (hm : s.mode = .encB) (ha : trailerAddr s < 8192) :
      Effect .sealFrame s (sealB s)
  | rdimg (a : ImgAddr) (s : State) : Effect (.rdimg a) s (respond (imgWord a s) s)
  | rdreg (r : RegName) (s : State) : Effect (.rdreg r) s (respond (readReg r s) s)

theorem Effect.of_exec {i : Instr} {s t : State} (ht : exec i s = .next t) : Effect i s t := by
  obtain ⟨rfl, rfl⟩ | ⟨m, rfl, rfl⟩ | ⟨b, rfl, hb⟩ | ⟨rfl, hs⟩ | ⟨a, rfl, rfl⟩ | ⟨r, rfl, rfl⟩ :=
    exec_eq_next ht
  · exact .nop t
  · exact .start m s
  · obtain ⟨hp, rfl⟩ | ⟨hp, hc, rfl⟩ | ⟨hp, hc, ha, rfl⟩ := execPush_eq_next hb
    · exact .pushOutsideAccum b hp
    · exact .pushAtCap b hp hc
    · exact .pushStores b hp hc ha
  · obtain ⟨hp, rfl⟩ | ⟨hp, hm, rfl⟩ | ⟨hp, hm, ha, rfl⟩ := execSeal_eq_next hs
    · exact .sealOutsideAccum hp
    · exact .sealA hp hm
    · exact .sealB hp hm ha
  · exact .rdimg a s
  · exact .rdreg r s

theorem Effect.exec_eq {i : Instr} {s t : State} (h : Effect i s t) : exec i s = .next t := by
  cases h with
  | nop | start | rdimg | rdreg => rfl
  | pushOutsideAccum b hp => exact if_pos hp
  | pushAtCap b hp hc => rw [exec, execPush, if_neg (not_not_intro hp), if_pos hc]
  | pushStores b hp hc ha =>
    rw [exec, execPush, if_neg (not_not_intro hp), if_neg hc, atImg_of_lt _ ha]
  | sealOutsideAccum hp => exact if_pos hp
  | sealA hp hm => rw [exec, execSeal, if_neg (not_not_intro hp), hm]
  | sealB hp hm ha =>
    rw [exec, execSeal, if_neg (not_not_intro hp), hm]
    exact atImg_of_lt _ ha

end Sys2Proof.Proofs
end

section
/-! PROOFS. The invariant `CoreInv` holds at reset, every word keeps it, and so does every edge. -/

namespace Sys2Proof.Proofs

open Sys2Proof.Machine Sys2Proof.Safety

/-- The invariant speaks of the frame alone: not of SEQERR, ILL, RSP or the model's own fields. -/
theorem coreInv_withOutsideFrame {s : State} (h : CoreInv s) (seqerr ill : Bool)
    (rsp : Option RspWord) (edges : List Edge) (busy tick : Nat) :
    CoreInv { s with
      seqerr := seqerr, ill := ill, rsp := rsp, edges := edges, busy := busy, tick := tick } where
  imgWf := h.imgWf
  countLeCap := h.countLeCap
  accHighZero := h.accHighZero
  outlenZero := h.outlenZero
  idleCleared := h.idleCleared
  accIsChecksum := h.accIsChecksum
  openFill := h.openFill
  sealedLayout := h.sealedLayout

theorem coreInv_setSeqerr {s : State} (h : CoreInv s) : CoreInv (setSeqerr s) :=
  coreInv_withOutsideFrame h ..

theorem coreInv_setIll {s : State} (h : CoreInv s) : CoreInv (setIll s) :=
  coreInv_withOutsideFrame h ..

theorem coreInv_acceptEdge {s : State} (h : CoreInv s) : CoreInv (acceptEdge s) :=
  coreInv_withOutsideFrame h ..

theorem coreInv_waitEdge {s : State} (h : CoreInv s) : CoreInv (waitEdge s) :=
  coreInv_withOutsideFrame h ..

/-- Settles O43: reset leaves an empty frame over an image of fill bytes. -/
theorem resetSatisfiesInvariant : Obligations.ResetSatisfiesInvariant where
  imgWf := Memory.wf_nil
  countLeCap := Nat.zero_le _
  accHighZero := nofun
  outlenZero := fun _ => rfl
  idleCleared := fun _ => ⟨rfl, rfl, rfl⟩
  accIsChecksum := rfl
  openFill := fun _ _ _ _ => rfl
  sealedLayout := nofun

theorem coreInv_resetEdge (s : State) : CoreInv (resetEdge s) :=
  coreInv_withOutsideFrame resetSatisfiesInvariant ..

/-- Every command keeps the invariant (R38). -/
theorem coreInv_exec {i : Instr} {s t : State} (h : CoreInv s) (ht : exec i s = .next t) :
    CoreInv t := by
  cases Effect.of_exec ht with
  | nop => exact h
  | start m => exact coreInv_openFrame m s
  | pushOutsideAccum | sealOutsideAccum => exact coreInv_setSeqerr h
  | pushAtCap b hp => exact coreInv_setTrunc h hp
  | pushStores b hp hc => exact coreInv_storePayload h hp (lt_of_le_of_ne h.countLeCap hc) b
  | sealA hp hm => exact coreInv_sealA h hm hp
  | sealB hp hm => exact coreInv_sealB h hm hp
  | rdimg | rdreg => exact coreInv_respond h _

theorem coreInv_execIllegal {w : Word} {s t : State} (h : CoreInv s)
    (ht : execIllegal w s = .next t) : CoreInv t := by
  rw [execIllegal_eq_next.1 ht]
  split
  · exact coreInv_respond (coreInv_setIll h) _
  · exact coreInv_setIll h

/-- Settles O44: a reset edge ends in the reset state's frame, an accepted word keeps the invariant
whatever it decodes to, and any other edge leaves the frame alone. -/
theorem stepKeepsInvariant : Obligations.StepKeepsInvariant := by
  intro s t h ht
  obtain ⟨-, rfl⟩ | ⟨-, -, hw⟩ | ⟨-, -, rfl⟩ := step_eq_next ht
  · exact coreInv_resetEdge s
  · have h := coreInv_acceptEdge h
    obtain ⟨i, -, hi⟩ | ⟨e, -, he⟩ := runWord_eq_next hw
    · exact coreInv_exec h hi
    · exact coreInv_execIllegal h he
  · exact coreInv_waitEdge h

end Sys2Proof.Proofs
end

section
/-! PROOFS. Who writes each piece of state (R24 to R30, R34, R35), how PHASE moves (R28), the reset values
(R39) and the done output (R37). -/

namespace Sys2Proof.Proofs

open Sys2Proof.Machine Sys2Proof.Safety

/-- Settles O29: each branch of each command ends in one named update, and the field lemmas of that update
say what it writes. -/
theorem onlyNamedCommandsWriteEachRegister : Obligations.OnlyNamedCommandsWriteEachRegister := by
  intro i s t ht
  cases Effect.of_exec ht with
  | nop | start | pushOutsideAccum | pushAtCap | pushStores | sealOutsideAccum | rdimg | rdreg => simp
  | sealA => simp [sealA]
  | sealB => simp [sealB]

/-- PHASE after a command that completes, as a function of PHASE before it (R28). -/
def phaseAfter : Instr → Phase → Phase
  | .start _, _ => .accum
  | .sealFrame, p => if p = .accum then .done else p
  | .nop, p | .push _, p | .rdimg _, p | .rdreg _, p => p

theorem exec_phase {i : Instr} {s t : State} (ht : exec i s = .next t) :
    t.phase = phaseAfter i s.phase := by
  cases Effect.of_exec ht with
  | nop | start | pushOutsideAccum | pushAtCap | pushStores | rdimg | rdreg => rfl
  | sealOutsideAccum hp => exact (if_neg hp).symm
  | sealA hp | sealB hp => exact (if_pos hp).symm

theorem execIllegal_phase {w : Word} {s t : State} (ht : execIllegal w s = .next t) :
    t.phase = s.phase := by
  rw [execIllegal_eq_next.1 ht]
  split <;> rfl

theorem start_or_seal_of_phaseAfter_ne {i : Instr} {p : Phase} (h : phaseAfter i p ≠ p) :
    (∃ m, i = .start m) ∨ (i = .sealFrame ∧ p = .accum) := by
  cases i with
  | start m => exact .inl ⟨m, rfl⟩
  | sealFrame => exact .inr ⟨rfl, by_contra fun hp => h (if_neg hp)⟩
  | nop | push b | rdimg a | rdreg r => exact absurd rfl h

theorem phaseAfter_eq_idle {i : Instr} {p : Phase} (h : phaseAfter i p = .idle) : p = .idle := by
  cases i with
  | start m => cases h
  | sealFrame => cases p <;> simp_all [phaseAfter]
  | nop | push b | rdimg a | rdreg r => exact h

/-- Settles O30: PHASE follows `phaseAfter` at an edge that accepts a legal word, and stays at any other
edge without reset. -/
theorem phaseMovesOnlyAsListed : Obligations.PhaseMovesOnlyAsListed := by
  refine ⟨⟨rfl, rfl, rfl, fun p => by cases p <;> decide⟩, fun s t ht => ?_⟩
  obtain ⟨hr, rfl⟩ | ⟨hr, ha, hw⟩ | ⟨hr, ha, rfl⟩ := step_eq_next ht
  · simp [hr]
  · obtain ⟨i, hd, hi⟩ | ⟨e, hd, he⟩ := runWord_eq_next hw
    · have hphase : t.phase = phaseAfter i s.phase := by simpa using exec_phase hi
      simp only [hr, ha, hd, hphase, Except.ok.injEq]
      refine ⟨nofun, fun _ => ⟨?start, ?sealFrame, fun hne => ⟨trivial, ?moved⟩, phaseAfter_eq_idle⟩⟩
      case start => rintro m - rfl; rfl
      case sealFrame => rintro - rfl hp; exact if_pos hp
      case moved => exact start_or_seal_of_phaseAfter_ne hne
    · have hphase : t.phase = s.phase := by simpa using execIllegal_phase he
      simp [hr, hd, hphase]
  · simp [hr, ha]

/-- Settles O34: every value is the reset state's own field. -/
theorem resetStateHoldsListedValues : Obligations.ResetStateHoldsListedValues :=
  ⟨rfl, rfl, rfl, rfl, rfl, rfl, rfl, rfl, fun _ _ => rfl, rfl, rfl⟩

theorem outputs_done (s : State) : (outputs s).done = true ↔ s.phase = .done := beq_iff_eq

/-- Settles O42: done compares PHASE with DONE, and START leaves ACCUM. -/
theorem doneFollowsPhase : Obligations.DoneFollowsPhase :=
  ⟨outputs_done, fun m s => ⟨openFrame m s, rfl, rfl⟩⟩

end Sys2Proof.Proofs
end

section
/-! PROOFS. No command reads RSP (R35), and none reads TRUNC but STATUS's own read (R29). -/

namespace Sys2Proof.Proofs

open Sys2Proof.Machine Sys2Proof.Safety

/-- TRUNC after a command that completes (R29): START clears it, a PUSH at capacity sets it. -/
def truncAfter : Instr → State → Bool
  | .start _, _ => false
  | .push _, s => if s.phase = .accum ∧ s.count.toNat = cap s.mode then true else s.trunc
  | .nop, s | .sealFrame, s | .rdimg _, s | .rdreg _, s => s.trunc

/-- RSP after a command that completes (R35): a read's answer, or what it held. -/
def rspAfter : Instr → State → Option RspWord
  | .rdimg a, s => some (imgWord a s)
  | .rdreg r, s => some (readReg r s)
  | .nop, s | .start _, s | .push _, s | .sealFrame, s => s.rsp

/-- From a state that differs in TRUNC and RSP a command completes as well, and ends in a state that
differs in TRUNC and RSP. -/
theorem exec_withTruncRsp {i : Instr} {s t : State} (ht : exec i s = .next t) (b : Bool)
    (r : Option RspWord) :
    exec i { s with trunc := b, rsp := r } = .next { t with
      trunc := truncAfter i { s with trunc := b, rsp := r }
      rsp := rspAfter i { s with trunc := b, rsp := r } } := by
  apply Effect.exec_eq
  cases Effect.of_exec ht with
  | nop => exact .nop _
  | start m => exact .start m _
  | pushOutsideAccum x hp =>
    rw [truncAfter, if_neg fun h => hp h.1]
    exact .pushOutsideAccum x hp
  | pushAtCap x hp hc =>
    rw [truncAfter, if_pos ⟨hp, hc⟩]
    exact .pushAtCap x hp hc
  | pushStores x hp hc ha =>
    rw [truncAfter, if_neg fun h => hc h.2]
    exact .pushStores x hp hc ha
  | sealOutsideAccum hp => exact .sealOutsideAccum hp
  | sealA hp hm => exact .sealA hp hm
  | sealB hp hm ha => exact .sealB hp hm ha
  | rdimg a => exact .rdimg a _
  | rdreg q => exact .rdreg q _

theorem exec_eq_withTruncRsp {i : Instr} {s t : State} (ht : exec i s = .next t) :
    t = { t with trunc := truncAfter i s, rsp := rspAfter i s } :=
  Host.Outcome.next.inj (ht.symm.trans (exec_withTruncRsp ht s.trunc s.rsp))

theorem exec_rsp {i : Instr} {s t : State} (ht : exec i s = .next t) : t.rsp = rspAfter i s :=
  congrArg State.rsp (exec_eq_withTruncRsp ht)

theorem eq_withRsp_of_sameButRsp {s u : State} (h : sameButRsp s u) : u = { s with rsp := u.rsp } :=
  (congrArg (fun x : State => { x with rsp := u.rsp }) h).symm

/-- Settles O31: the state left by a command depends on RSP in RSP alone, and a read's answer not at
all. -/
theorem commandsDoNotReadRsp : Obligations.CommandsDoNotReadRsp := by
  intro i s u t hsame ht
  obtain ⟨r, rfl⟩ : ∃ r, u = { s with rsp := r } := ⟨u.rsp, eq_withRsp_of_sameButRsp hsame⟩
  refine ⟨_, exec_withTruncRsp ht s.trunc r, ?_, ?_, ?_⟩
  · rw [sameButRsp, exec_eq_withTruncRsp ht]
    cases i <;> rfl
  · rw [exec_rsp ht]
    rintro (⟨a, rfl⟩ | ⟨q, rfl⟩)
    · rfl
    · cases q <;> rfl
  · intro hread
    cases i with
    | rdimg a => exact absurd (.inl ⟨a, rfl⟩) hread
    | rdreg q => exact absurd (.inr ⟨q, rfl⟩) hread
    | nop | start m | push x | sealFrame => rfl

/-- Settles O32: the state left by a command depends on TRUNC in TRUNC alone, and a response only where
it is STATUS. -/
theorem truncIsOnlyInformational : Obligations.TruncIsOnlyInformational := by
  intro i s t b ht
  refine ⟨_, exec_withTruncRsp ht b s.rsp, rfl, rfl, fun hi => ?_⟩
  rw [exec_rsp ht]
  cases i with
  | rdreg q =>
    cases q with
    | status => exact absurd rfl hi
    | acc | count | outlen => rfl
  | nop | start m | push x | sealFrame | rdimg a => rfl

end Sys2Proof.Proofs
end

section
/-! PROOFS. The open frame holds the pushed bytes (R38, R116), SEQERR and ILL as they were (R188). -/

namespace Sys2Proof.Proofs

open Sys2Proof.Machine Sys2Proof.Safety

theorem exec_ill {i : Instr} {s t : State} (ht : exec i s = .next t) : t.ill = s.ill := by
  obtain ⟨-, -, -, -, -, -, -, hill, -⟩ := onlyNamedCommandsWriteEachRegister i s t ht
  exact hill

/-- In ACCUM every command is in its phase (R162). -/
theorem exec_seqerr_of_accum {i : Instr} {s t : State} (ht : exec i s = .next t)
    (hp : s.phase = .accum) : t.seqerr = s.seqerr := by
  cases Effect.of_exec ht with
  | pushOutsideAccum b hp' | sealOutsideAccum hp' => exact absurd hp hp'
  | nop | start | pushAtCap | pushStores | sealA | sealB | rdimg | rdreg => rfl

theorem phaseAfter_of_inFrame {i : Instr} (hi : inFrame i = true) (p : Phase) : phaseAfter i p = p := by
  cases i with
  | start m | sealFrame => cases hi
  | nop | push b | rdimg a | rdreg r => rfl

/-- PUSHes and reads on an open frame set neither error bit (R188). -/
theorem runCommands_inFrame_flags {is : List Instr} (his : ∀ i ∈ is, inFrame i = true) {s t : State}
    (hp : s.phase = .accum) (ht : runCommands is s = .next t) :
    t.seqerr = s.seqerr ∧ t.ill = s.ill := by
  induction is generalizing s with
  | nil =>
    cases ht
    exact ⟨rfl, rfl⟩
  | cons i is ih =>
    obtain ⟨hi, his⟩ := List.forall_mem_cons.1 his
    cases he : exec i s with
    | next u =>
      rw [runCommands_cons_of_next he] at ht
      have hu : u.phase = .accum := by rw [exec_phase he, phaseAfter_of_inFrame hi, hp]
      rw [← exec_seqerr_of_accum he hp, ← exec_ill he]
      exact ih his hu ht
    | fault f => simp [runCommands, he] at ht
    | refused f => simp [runCommands, he] at ht

/-- Settles O46: START opens an empty frame whatever the state was; `OpenHolds` follows the pushed bytes
through it. -/
theorem openFrameHoldsPushedBytes : Obligations.OpenFrameHoldsPushedBytes := by
  intro m is s his
  obtain ⟨t, ht, hopen⟩ := runCommands_inFrame his (openHolds_openFrame m s)
  obtain ⟨hseqerr, hill⟩ := runCommands_inFrame_flags his rfl ht
  have hdone : t.phase ≠ .done := by simp [hopen.phaseAccum]
  refine ⟨t, (runCommands_cons_of_next (t := openFrame m s) rfl is).trans ht, hopen.phaseAccum,
    hopen.modeEq, hopen.outlenZero hdone, hseqerr, hill, hopen.payloadEq, ?_, hopen.truncEq⟩
  rw [hopen.accIsChecksum, hopen.modeEq, hopen.payloadEq, List.nil_append]

end Sys2Proof.Proofs
end

section
/-! PROOFS. The image buffer as data: the cells of a canonical memory are what it reads as, and put16
follows the byte order (R54, R55). -/

namespace Sys2Proof.Proofs

open Sys2Proof.Machine

/-- The cells of a canonical memory are the bytes that differ from the fill (log 7). -/
theorem mem_iff_read {m : Memory} (h : m.wf) (a : Nat) (v : Byte) :
    (a, v) ∈ m ↔ v ≠ 0xFF ∧ m.read a = v := by
  induction m with
  | nil => simp [eq_comm]
  | cons c m ih =>
    obtain ⟨k, x⟩ := c
    obtain ⟨hk, -, hx, hm⟩ := (Memory.wf_cons_iff k x m).1 h
    rw [List.mem_cons, ih hm, Memory.read_cons]
    by_cases hka : k = a
    · subst hka
      have htail : Memory.read m k = 0xFF := Memory.read_of_lt hk
      rw [if_pos rfl, htail]
      grind
    · rw [if_neg hka]
      grind

/-- A canonical memory reads as the fill outside IMG (R50). -/
theorem read_of_outside {m : Memory} (h : m.wf) {a : Nat} (ha : 8192 ≤ a) : m.read a = 0xFF := by
  by_contra hne
  have hlt : a < 8192 := (h.2 _ ((mem_iff_read h a (m.read a)).2 ⟨hne, rfl⟩)).1
  omega

/-- Settles O50: both lists are sorted by address and have the same cells, since the bytes read decide
which cells a canonical memory has. -/
theorem canonicalMemoriesAreExtensional : Obligations.CanonicalMemoriesAreExtensional := by
  intro m n hm hn hread
  have hmem (c : Host.Cell) : c ∈ m ↔ c ∈ n := by
    rw [mem_iff_read hm, mem_iff_read hn, hread]
  have : Std.Asymm fun x y : Host.Cell => x.1 < y.1 := ⟨fun _ _ => lt_asymm⟩
  exact hm.1.eq_of_mem_iff hn.1 hmem

/-- Settles O51: `read_put16` in each of the two byte orders. -/
theorem put16FollowsByteOrder : Obligations.Put16FollowsByteOrder :=
  ⟨⟨rfl, rfl⟩, fun _ _ v hm ha => ⟨read_put16 hm ha v .le, read_put16 hm ha v .be⟩⟩

end Sys2Proof.Proofs
end

section
/-! PROOFS. The addresses commands form lie inside IMG (R61), so under the register invariant every
command completes (R160), and no command writes outside (log 8). -/

namespace Sys2Proof.Proofs

open Sys2Proof.Machine Sys2Proof.Safety

/-! ### The addresses -/

/-- The trailer of a mode-B frame has its place inside the image (R61, R136). -/
theorem trailerAddr_lt {s : State} (h : RegInv s) (hm : s.mode = .encB) : trailerAddr s < 8192 := by
  have hcap : s.count.toNat ≤ 8189 := by simpa [hm] using h.countLeCap
  simp only [trailerAddr]
  omega

/-- In mode B a stored byte leaves room for the trailer behind it (R61). -/
theorem payloadAddr_lt_of_encB {s : State} (hm : s.mode = .encB) (hr : s.count.toNat < cap s.mode) :
    payloadAddr s < 8191 := by
  simp only [hm, cap_encB] at hr
  simp only [payloadAddr, hm, poff_encB]
  omega

/-! ### Stops -/

/-- Under the register invariant every command completes (R61, R160). -/
theorem exec_completes {s : State} (h : RegInv s) (i : Instr) : ∃ t, exec i s = .next t := by
  cases i with
  | nop | start m | rdimg a | rdreg r => exact ⟨_, rfl⟩
  | push b =>
    by_cases hp : s.phase = .accum
    · by_cases hc : s.count.toNat = cap s.mode
      · exact ⟨_, (Effect.pushAtCap b hp hc).exec_eq⟩
      · have ha := payloadAddr_lt (lt_of_le_of_ne h.countLeCap hc)
        exact ⟨_, (Effect.pushStores b hp hc ha).exec_eq⟩
    · exact ⟨_, (Effect.pushOutsideAccum b hp).exec_eq⟩
  | sealFrame =>
    by_cases hp : s.phase = .accum
    · cases hm : s.mode with
      | encA => exact ⟨_, (Effect.sealA hp hm).exec_eq⟩
      | encB => exact ⟨_, (Effect.sealB hp hm (trailerAddr_lt h hm)).exec_eq⟩
    · exact ⟨_, (Effect.sealOutsideAccum hp).exec_eq⟩

theorem execPush_ne_refused (b : Byte) (s : State) (r : Refusal) : execPush b s ≠ .refused r := by
  unfold execPush
  split
  · nofun
  · split
    · nofun
    · exact atImg_ne_refused

theorem execSeal_ne_refused (s : State) (r : Refusal) : execSeal s ≠ .refused r := by
  unfold execSeal
  split
  · nofun
  · split
    · nofun
    · exact atImg_ne_refused

theorem exec_ne_refused (i : Instr) (s : State) (r : Refusal) : exec i s ≠ .refused r := by
  cases i with
  | nop | start m | rdimg a | rdreg q => nofun
  | push b => exact execPush_ne_refused b s r
  | sealFrame => exact execSeal_ne_refused s r

theorem exec_push_of_outside {s : State} (hp : s.phase = .accum) (hc : s.count.toNat ≠ cap s.mode)
    (ha : 8192 ≤ payloadAddr s) (b : Byte) :
    exec (.push b) s = .fault (.imgAddressOutside (payloadAddr s)) := by
  rw [exec, execPush, if_neg (not_not_intro hp), if_neg hc, atImg_of_ge _ ha]

theorem exec_sealFrame_of_outside {s : State} (hp : s.phase = .accum) (hm : s.mode = .encB)
    (ha : 8192 ≤ trailerAddr s) :
    exec .sealFrame s = .fault (.imgAddressOutside (trailerAddr s)) := by
  rw [exec, execSeal, if_neg (not_not_intro hp), hm]
  exact atImg_of_ge _ ha

/-- Settles O27: the two guarded writes stop by name, and `exec_completes` excludes a fault under the
register invariant. -/
theorem onlyAddressesOutsideTheImageStop : Obligations.OnlyAddressesOutsideTheImageStop := by
  refine ⟨exec_ne_refused, fun b _ hp hc ha => exec_push_of_outside hp hc ha b,
    fun _ => exec_sealFrame_of_outside, fun i s f hf h => ?_⟩
  obtain ⟨t, ht⟩ := exec_completes h i
  simp [hf] at ht

/-! ### Writes -/

theorem wf_sealedImgA {s : State} (h : s.img.wf) : (sealedImgA s).wf :=
  have hhead := Memory.wf_writeBytes h headerConst (a := 0) (by decide)
  wf_put16 (wf_put16 hhead (by decide) _ _) (by decide) _ _

theorem wf_sealedImgB {s : State} (h : s.img.wf) (ha : trailerAddr s < 8192) : (sealedImgB s).wf :=
  Memory.wf_write (wf_put16 h (by decide) _ _) ha _

/-- Every command keeps the canonical form of IMG, in any state (log 7). -/
theorem img_wf_exec {i : Instr} {s t : State} (h : s.img.wf) (ht : exec i s = .next t) : t.img.wf := by
  cases Effect.of_exec ht with
  | nop | pushOutsideAccum | pushAtCap | sealOutsideAccum | rdimg | rdreg => exact h
  | start => exact Memory.wf_filled
  | pushStores b _ _ ha => exact Memory.wf_write h ha b
  | sealA => exact wf_sealedImgA h
  | sealB _ _ ha => exact wf_sealedImgB h ha

/-- Settles O28: COUNT is at most CAP, which bounds the addresses, and the image a command leaves is
canonical, so that it reads as the fill outside IMG as before. -/
theorem noCommandLeavesTheImage : Obligations.NoCommandLeavesTheImage := by
  refine ⟨fun a => Nat.le_of_lt_succ (imgAddr_lt a), fun s h => ⟨?pushA, ?pushB, ?trailer, ?outside⟩⟩
  case pushA =>
    exact fun hc _ => Nat.le_of_lt_succ (payloadAddr_lt (lt_of_le_of_ne h.countLeCap hc))
  case pushB =>
    exact fun hc hm =>
      Nat.le_of_lt_succ (payloadAddr_lt_of_encB hm (lt_of_le_of_ne h.countLeCap hc))
  case trailer => exact fun hm => Nat.le_of_lt_succ (trailerAddr_lt h hm)
  case outside =>
    intro i t ht a ha
    rw [read_of_outside (img_wf_exec h.imgWf ht) ha, read_of_outside h.imgWf ha]

end Sys2Proof.Proofs
end

section
/-! PROOFS. A read answers from the frame alone (R60), and the payload of a sealed frame is read back at
its offset (R69). -/

namespace Sys2Proof.Proofs

open Sys2Proof.Machine Sys2Proof.Safety

theorem readReg_withRsp (q : RegName) (s : State) (r : Option RspWord) :
    readReg q { s with rsp := r } = readReg q s := by
  cases q <;> rfl

/-- Settles O22: the word is the byte or the register read, and neither depends on RSP. -/
theorem repeatedReadsReturnSameWord : Obligations.RepeatedReadsReturnSameWord := by
  rintro i s (⟨a, rfl⟩ | ⟨q, rfl⟩)
  · exact ⟨imgWord a s, rfl, fun _ => rfl⟩
  · refine ⟨readReg q s, rfl, fun r => ?_⟩
    rw [exec, execRdreg, readReg_withRsp]
    rfl

theorem pushedBytes_map_push (bs : List Byte) : pushedBytes (bs.map .push) = bs := by
  induction bs with
  | nil => rfl
  | cons b bs ih => rw [List.map_cons, pushedBytes, ih]

/-- The commands of a frame of at most CAP(m) bytes complete, from any state, in a sealed frame that
holds exactly these bytes (R69, R188). -/
theorem runCommands_frameCommands {m : Mode} {bs : List Byte} (hbs : bs.length ≤ cap m) (s : State) :
    ∃ t, runCommands (frameCommands m bs) s = .next t ∧ CoreInv t ∧ t.phase = .done ∧ t.mode = m ∧
      payload t = bs := by
  have hpushes : ∀ i ∈ bs.map Instr.push, inFrame i = true := by simp [inFrame]
  obtain ⟨u, hu, hopen⟩ := runCommands_inFrame hpushes (openHolds_openFrame m s)
  obtain ⟨t, ht, hinv, hdone, hmode, hpay⟩ := exec_sealFrame_of_accum hopen.toCoreInv hopen.phaseAccum
  refine ⟨t, ?run, hinv, hdone, hmode.trans hopen.modeEq, ?payload⟩
  case run =>
    rw [frameCommands, runCommands_cons_of_next (t := openFrame m s) rfl,
      runCommands_append_of_next hu, runCommands_cons_of_next ht, runCommands]
  case payload =>
    rw [hpay, hopen.payloadEq, List.nil_append, pushedBytes_map_push, List.take_of_length_le hbs]

theorem responseTo_rdimg (a : ImgAddr) (s : State) :
    responseTo (.rdimg a) s = some ((s.img.read a.toNat).setWidth 16) := rfl

theorem read_payload (s : State) {i : Nat} (hi : i < (payload s).length) :
    s.img.read (poff s.mode + i) = (payload s)[i] := by
  simp [payload]

/-- Settles O48: the sealed frame holds the pushed bytes as its payload, and RDIMG reads the payload at
its offset. -/
theorem sealedPayloadRoundTrips : Obligations.SealedPayloadRoundTrips := by
  intro m bs s hbs
  obtain ⟨t, ht, -, -, rfl, rfl⟩ := runCommands_frameCommands hbs s
  refine ⟨t, ht, (length_payload t).symm, fun i hi => ?_⟩
  have haddr : poff t.mode + i < 2 ^ 13 := by
    have := poff_add_cap_le t.mode
    omega
  rw [responseTo_rdimg, BitVec.toNat_ofNat, Nat.mod_eq_of_lt haddr, read_payload t hi]

end Sys2Proof.Proofs
end

section
/-! PROOFS. The opcode map (R77) and the decoder over it (R78): each word selects at most one row, and
decode and encode are inverse to each other. -/

namespace Sys2Proof.Proofs

/-! ### Rows -/

theorem selects_iff_and_mask {r : OpRow} {w : Word} : r.selects w = true ↔ w &&& r.mask = r.pat :=
  beq_iff_eq

/-- Two different rows fix some bit to different values. -/
theorem rows_disagree : ∀ r ∈ opTable, ∀ q ∈ opTable, r.pat &&& q.mask = q.pat &&& r.mask → r = q := by
  decide

/-- No two rows overlap (R77). -/
theorem row_unique {r q : OpRow} (hr : r ∈ opTable) (hq : q ∈ opTable) {w : Word}
    (hrw : r.selects w = true) (hqw : q.selects w = true) : r = q := by
  apply rows_disagree r hr q hq
  rw [← selects_iff_and_mask.1 hrw, ← selects_iff_and_mask.1 hqw, BitVec.and_assoc, BitVec.and_assoc,
    BitVec.and_comm r.mask]

theorem row_of_find {r : OpRow} {w : Word} (h : opTable.find? (·.selects w) = some r) :
    r ∈ opTable ∧ r.selects w = true :=
  ⟨List.mem_of_find?_eq_some h, List.find?_some (p := (OpRow.selects · w)) h⟩

theorem decode_of_selects {r : OpRow} (hr : r ∈ opTable) {w : Word} (hw : r.selects w = true) :
    decode w = .ok (operandsOf r.op w) := by
  unfold decode
  split
  · next q hfind =>
    obtain ⟨hq, hqw⟩ := row_of_find hfind
    rw [row_unique hr hq hw hqw]
  · next hnone => exact absurd hw (List.find?_eq_none.1 hnone r hr)

/-- A legal word selects a row, which names its command (R78). -/
theorem exists_row_of_decode {w : Word} {i : Instr} (h : decode w = .ok i) :
    ∃ r ∈ opTable, r.selects w = true ∧ operandsOf r.op w = i := by
  unfold decode at h
  split at h
  · next r hfind =>
    obtain ⟨hr, hw⟩ := row_of_find hfind
    exact ⟨r, hr, hw, Except.ok.inj h⟩
  · cases h

theorem rows_pairwise_disjoint (w : Word) :
    (opTable.map fun r => w &&& r.mask = r.pat).Pairwise fun p q => ¬(p ∧ q) := by
  refine List.pairwise_map.2 (List.Nodup.pairwise_of_forall_ne (by decide) ?_)
  rintro r hr q hq hne ⟨hrw, hqw⟩
  exact hne (row_unique hr hq (selects_iff_and_mask.2 hrw) (selects_iff_and_mask.2 hqw))

/-! ### Operand fields -/

theorem modeBit_modeField (w : Word) : modeBit (modeField w) = w.extractLsb' 0 1 := by
  rw [modeField]
  ext i hi
  obtain rfl : i = 0 := by omega
  rw [BitVec.getElem_extractLsb']
  cases w.getLsbD (0 + 0) <;> simp [modeBit]

theorem regIndex_regOfIndex : ∀ r : BitVec 2, regIndex (regOfIndex r) = r := by decide

theorem regIndex_regField (w : Word) : regIndex (regField w) = w.extractLsb' 0 2 :=
  regIndex_regOfIndex _

/-- Settles O3: a row that selects a word decides it, a legal word selects some row, and the rows are
pairwise disjoint. -/
theorem opcodeMapSelectsCommands : Obligations.OpcodeMapSelectsCommands := by
  intro w
  have hrow : ∀ r ∈ opTable, w &&& r.mask = r.pat → decode w = .ok (operandsOf r.op w) :=
    fun r hr hw => decode_of_selects hr (selects_iff_and_mask.2 hw)
  refine ⟨hrow ⟨.nop, _, _⟩ (by decide), hrow ⟨.start, _, _⟩ (by decide),
    hrow ⟨.push, _, _⟩ (by decide), hrow ⟨.sealFrame, _, _⟩ (by decide),
    hrow ⟨.rdimg, _, _⟩ (by decide), fun hw => ⟨regField w, ?rdreg, regIndex_regField w⟩, ?legal,
    rows_pairwise_disjoint w⟩
  case rdreg => exact hrow ⟨.rdreg, _, _⟩ (by decide) hw
  case legal =>
    rintro ⟨i, hi⟩
    obtain ⟨r, hr, hw, -⟩ := exists_row_of_decode hi
    simpa [opTable, OpRow.selects] using (⟨r, hr, hw⟩ : ∃ r ∈ opTable, r.selects w = true)

/-! ### Decoding an encoded command -/

theorem encodeRow (i : Instr) : Laws.EncodeRow.Statement i := by
  cases i with
  | nop => exact Laws.EncodeRow.nop
  | start m => exact Laws.EncodeRow.start m
  | push b => exact Laws.EncodeRow.push b
  | sealFrame => exact Laws.EncodeRow.sealFrame
  | rdimg a => exact Laws.EncodeRow.rdimg a
  | rdreg r => exact Laws.EncodeRow.rdreg r

theorem exists_row_selects_encode (i : Instr) :
    ∃ r ∈ opTable, r.selects (encode i) = true ∧ r.op = opcodeOf i := by
  have h : opcodeOf i ∈ (opTable.filter (·.selects (encode i))).map OpRow.op := by
    rw [encodeRow i]
    exact List.mem_singleton_self _
  obtain ⟨r, hr, hop⟩ := List.mem_map.1 h
  obtain ⟨hmem, hsel⟩ := List.mem_filter.1 hr
  exact ⟨r, hmem, hsel, hop⟩

/-- A field placed in the low bits of a word, below a pattern that is zero there, is read back. -/
theorem extract_pattern_or_operand {k : Nat} (hk : k ≤ 16) {p : Word} (hp : p.extractLsb' 0 k = 0)
    (v : BitVec k) : (p ||| v.setWidth 16).extractLsb' 0 k = v := by
  rw [BitVec.extractLsb'_or, hp]
  ext i hi
  simp [hi]
  omega

theorem operandsOf_encode (i : Instr) : operandsOf (opcodeOf i) (encode i) = i := by
  cases i with
  | nop | sealFrame => rfl
  | start m => cases m <;> rfl
  | push b => exact congrArg Instr.push (extract_pattern_or_operand (by decide) (by decide) b)
  | rdimg a => exact congrArg Instr.rdimg (extract_pattern_or_operand (by decide) (by decide) a)
  | rdreg r => cases r <;> rfl

/-- Settles O1: the encoded word selects the command's own row, and the operand fields of that row hold
the command's operands. -/
theorem decodeEncodeRoundTrip : Obligations.DecodeEncodeRoundTrip := by
  intro i
  obtain ⟨r, hr, hsel, hop⟩ := exists_row_selects_encode i
  rw [decode_of_selects hr hsel, hop, operandsOf_encode]

/-! ### Encoding a decoded word -/

/-- A word splits into the pattern of the row it selects and the bits that row's mask leaves free. -/
theorem eq_pattern_or_free {r : OpRow} {w : Word} (h : r.selects w = true) :
    w = r.pat ||| (w &&& ~~~r.mask) := by
  rw [← selects_iff_and_mask.1 h, ← BitVec.and_or_distrib_left, BitVec.or_not_self, BitVec.and_allOnes]

/-- The low k bits of a word, as a word. -/
theorem setWidth_extract_low (w : Word) {k : Nat} (hk : k ≤ 16) :
    (w.extractLsb' 0 k).setWidth 16 = w &&& BitVec.ofNat 16 (2 ^ k - 1) := by
  have hpow : 2 ^ k ≤ 65536 := Nat.pow_le_pow_right (by decide) hk
  have hmod := Nat.mod_lt w.toNat (Nat.two_pow_pos k)
  apply BitVec.eq_of_toNat_eq
  rw [BitVec.toNat_setWidth, BitVec.extractLsb'_toNat, BitVec.toNat_and, BitVec.toNat_ofNat,
    Nat.shiftRight_zero, Nat.mod_eq_of_lt (a := 2 ^ k - 1) (by omega), Nat.and_two_pow_sub_one_eq_mod,
    Nat.mod_eq_of_lt (hmod.trans_le hpow)]

theorem encode_operandsOf {r : OpRow} (hr : r ∈ opTable) (w : Word) :
    encode (operandsOf r.op w) = r.pat ||| (w &&& ~~~r.mask) := by
  simp only [opTable, List.mem_cons, List.not_mem_nil, or_false] at hr
  rcases hr with rfl | rfl | rfl | rfl | rfl | rfl <;> simp only [operandsOf, encode]
  · simp
  · rw [modeBit_modeField]; exact congrArg _ (setWidth_extract_low w (by decide))
  · exact congrArg _ (setWidth_extract_low w (by decide))
  · simp
  · exact congrArg _ (setWidth_extract_low w (by decide))
  · rw [regIndex_regField]; exact congrArg _ (setWidth_extract_low w (by decide))

/-- Settles O2: a word is the pattern of its row and its operand fields, which is what encode puts
together. -/
theorem encodeDecodeRoundTrip : Obligations.EncodeDecodeRoundTrip := by
  intro w i h
  obtain ⟨r, hr, hsel, rfl⟩ := exists_row_of_decode h
  rw [encode_operandsOf hr, ← eq_pattern_or_free hsel]

/-- Settles O5: each word is written out, and decode evaluates on it. -/
theorem decodesWordsOfTheSpec : Obligations.DecodesWordsOfTheSpec := by
  unfold Obligations.DecodesWordsOfTheSpec
  decide

end Sys2Proof.Proofs
end

section
/-! PROOFS. The illegal words (R79, R80) as the words no row selects, and what running one does (R154,
R163). -/

namespace Sys2Proof.Proofs

open Sys2Proof.Machine

/-! ### Rows by OP and reserved bits -/

/-- OP of each command (R75, R77). -/
def opBits : Opcode → BitVec 3
  | .nop => 0b000
  | .start => 0b001
  | .push => 0b010
  | .sealFrame => 0b011
  | .rdimg => 0b100
  | .rdreg => 0b101

/-- How many low bits of the word each command's operand takes (R76). -/
def operandBits : Opcode → Nat
  | .nop => 0
  | .start => 1
  | .push => 8
  | .sealFrame => 0
  | .rdimg => 13
  | .rdreg => 2

/-- A row asks for its OP and for zeros between OP and the operand (R77, R80). -/
theorem selects_iff_fields {r : OpRow} (hr : r ∈ opTable) (w : Word) :
    r.selects w = true ↔ w.extractLsb' 13 3 = opBits r.op ∧
      w.extractLsb' (operandBits r.op) (13 - operandBits r.op) = 0 := by
  have hmask : ∀ q ∈ opTable, q.mask = BitVec.allOnes 16 <<< operandBits q.op := by decide
  have hpat : ∀ q ∈ opTable, q.pat.toNat = (opBits q.op).toNat * 8192 := by decide
  have hw := word_lt w
  rw [selects_iff_and_mask, hmask r hr, ← BitVec.shiftLeft_ushiftRight, ← BitVec.toNat_inj,
    ← BitVec.toNat_inj, ← BitVec.toNat_inj, hpat r hr]
  simp only [BitVec.toNat_shiftLeft, BitVec.toNat_ushiftRight, BitVec.extractLsb'_toNat,
    Nat.shiftRight_eq_div_pow, Nat.shiftLeft_eq]
  cases r.op <;> simp [opBits, operandBits] <;> omega

/-! ### Legal and illegal words -/

theorem legal_iff_exists_row {w : Word} :
    (∃ i, decode w = .ok i) ↔ ∃ r ∈ opTable, r.selects w = true where
  mp := fun ⟨_, hi⟩ =>
    have ⟨r, hr, hw, _⟩ := exists_row_of_decode hi
    ⟨r, hr, hw⟩
  mpr := fun ⟨r, hr, hw⟩ => ⟨operandsOf r.op w, decode_of_selects hr hw⟩

theorem illegal_iff_not_legal {w : Word} : (∃ e, decode w = .error e) ↔ ¬∃ i, decode w = .ok i := by
  cases decode w <;> simp

/-- The words of R79 and R80: OP is reserved, or a reserved operand bit is set. -/
def IsReserved (w : Word) : Prop :=
  0xC000 ≤ w.toNat ∨
    (w.extractLsb' 13 3 = 0b000 ∧ w.extractLsb' 0 13 ≠ 0) ∨
    (w.extractLsb' 13 3 = 0b001 ∧ w.extractLsb' 1 12 ≠ 0) ∨
    (w.extractLsb' 13 3 = 0b010 ∧ w.extractLsb' 8 5 ≠ 0) ∨
    (w.extractLsb' 13 3 = 0b011 ∧ w.extractLsb' 0 13 ≠ 0) ∨
    (w.extractLsb' 13 3 = 0b101 ∧ w.extractLsb' 2 11 ≠ 0)

theorem reservedOp_iff (w : Word) :
    0xC000 ≤ w.toNat ↔ w.extractLsb' 13 3 = 0b110 ∨ w.extractLsb' 13 3 = 0b111 := by
  have hw := word_lt w
  simp only [← BitVec.toNat_inj, BitVec.extractLsb'_toNat, Nat.shiftRight_eq_div_pow,
    BitVec.reduceToNat]
  omega

theorem op_cases : ∀ op : BitVec 3, op = 0b000 ∨ op = 0b001 ∨ op = 0b010 ∨ op = 0b011 ∨ op = 0b100 ∨
    op = 0b101 ∨ op = 0b110 ∨ op = 0b111 := by
  decide

theorem legal_iff_not_isReserved (w : Word) : (∃ i, decode w = .ok i) ↔ ¬IsReserved w := by
  have hrow : (∃ i, decode w = .ok i) ↔ ∃ r ∈ opTable, w.extractLsb' 13 3 = opBits r.op ∧
      w.extractLsb' (operandBits r.op) (13 - operandBits r.op) = 0 := by
    rw [legal_iff_exists_row]
    exact exists_congr fun r => and_congr_right fun hr => selects_iff_fields hr w
  rw [hrow, IsReserved, reservedOp_iff]
  simp only [opTable, List.exists_mem_cons_iff, List.not_mem_nil, false_and, exists_false, or_false,
    opBits, operandBits]
  obtain h | h | h | h | h | h | h | h := op_cases (w.extractLsb' 13 3) <;> simp [h] <;> rfl

/-! ### Running a word -/

theorem runWord_of_ok {w : Word} {i : Instr} (h : decode w = .ok i) (s : State) :
    runWord w s = exec i s := by
  rw [runWord, h]

theorem runWord_of_error {w : Word} {e : IllegalWord} (h : decode w = .error e) (s : State) :
    runWord w s = execIllegal w s := by
  rw [runWord, h]

theorem answersRead_iff (w : Word) : answersRead w = true ↔ w.extractLsb' 13 3 = 0b101 := beq_iff_eq

theorem execIllegal_eq (w : Word) (s : State) : execIllegal w s = .next { s with
    ill := true
    rsp := if w.extractLsb' 13 3 = 0b101 then some 0x0000 else s.rsp } := by
  rw [execIllegal]
  by_cases h : w.extractLsb' 13 3 = 0b101
  · rw [if_pos ((answersRead_iff w).2 h), if_pos h]; rfl
  · rw [if_neg (mt (answersRead_iff w).1 h), if_neg h]; rfl

/-- Settles O4: the reserved words are those no row selects, so a reserved word takes the illegal branch
of `runWord` and every other word the branch of its command. -/
theorem illegalWordsOnlySetIll : Obligations.IllegalWordsOnlySetIll := by
  refine fun w s => ⟨reservedOp_iff w, fun (hres : IsReserved w) => ?_, fun (hres : ¬IsReserved w) => ?_⟩
  · obtain ⟨e, he⟩ := illegal_iff_not_legal.2 (mt (legal_iff_not_isReserved w).1 (not_not_intro hres))
    exact ⟨⟨e, he⟩, (runWord_of_error he s).trans (execIllegal_eq w s)⟩
  · obtain ⟨i, hi⟩ := (legal_iff_not_isReserved w).2 hres
    exact ⟨i, hi, runWord_of_ok hi s⟩

end Sys2Proof.Proofs
end

section
/-! PROOFS. The command and response channels at one edge (R72, R73), and how cmd_ready returns after the
free latency (R192). -/

namespace Sys2Proof.Proofs

open Sys2Proof.Machine Sys2Proof.Safety

/-! ### Acceptance -/

theorem accepts_iff (s : State) : accepts s = true ↔
    (currentEdge s).rst = false ∧ (currentEdge s).cmdValid = true ∧ cmdReady s = true := by
  simp [accepts, and_assoc]

theorem step_of_accepts {s : State} (h : accepts s = true) :
    step s = runWord (currentEdge s).cmdData (acceptEdge s) := by
  obtain ⟨hrst, -, -⟩ := (accepts_iff s).1 h
  simp [step, hrst, h]

theorem currentEdge_of_cons {s : State} {e : Edge} {rest : List Edge} (h : s.edges = e :: rest) :
    currentEdge s = e := by
  rw [currentEdge, h]; rfl

theorem acceptEdge_of_cons {s : State} {e : Edge} {rest : List Edge} (h : s.edges = e :: rest) :
    acceptEdge s = { s with edges := rest, busy := config.lat s.tick, tick := s.tick + 1 } := by
  rw [acceptEdge, passEdge, h]; rfl

/-- Settles O35: the edge accepts, and the word runs where the accepting edge has passed. -/
theorem stepRunsAcceptedCommand : Obligations.StepRunsAcceptedCommand := by
  intro s e rest hedges hrst hvalid hready
  have hedge := currentEdge_of_cons hedges
  have hacc : accepts s = true :=
    (accepts_iff s).2 ⟨hedge ▸ hrst, hedge ▸ hvalid, hready⟩
  rw [step_of_accepts hacc, hedge, acceptEdge_of_cons hedges]
  exact ⟨fun i hi => runWord_of_ok hi _, fun x hx => runWord_of_error hx _⟩

theorem accepts_offerWord (w : Word) (s : State) : accepts (offerWord w s) = true :=
  (accepts_iff _).2 ⟨rfl, rfl, rfl⟩

theorem tableWord_16 {w : Nat} (hw : w < 65536) : tableWord 16 w = BitVec.ofNat 16 w := by
  have hmod : w % 2 ^ 16 = w := Nat.mod_eq_of_lt hw
  rw [tableWord, hmod]

/-- Settles O36: the offered word stands at the coming edge of a core that is ready. -/
theorem fetchWordRunsAtNextStep : Obligations.FetchWordRunsAtNextStep := by
  intro s w hw
  rw [State.withFetchWord, step_of_accepts (accepts_offerWord _ s), tableWord_16 hw]
  rfl

/-! ### Edges without acceptance -/

theorem sameArch_waitEdge (s : State) : sameArch (waitEdge s) { s with
    rsp := if rspValid s = true ∧ (currentEdge s).rspReady = true then none else s.rsp } := by
  simp [sameArch, waitEdge, passEdge, takesResponse]

theorem sameArch_waitEdge_of_empty {s : State} (hrsp : s.rsp = none) : sameArch (waitEdge s) s := by
  simp [sameArch, waitEdge, passEdge, hrsp]

/-- Settles O37: acceptance is the conjunction by definition, and any other edge without reset is a
waiting edge. -/
theorem edgeWithoutAcceptanceChangesNothing : Obligations.EdgeWithoutAcceptanceChangesNothing :=
  fun s => ⟨accepts_iff s, fun hrst hacc =>
    ⟨waitEdge s, step_eq_waitEdge hrst hacc, sameArch_waitEdge s⟩⟩

/-! ### The response register -/

theorem opcodeOf_operandsOf (op : Opcode) (w : Word) : opcodeOf (operandsOf op w) = op := by
  cases op <;> rfl

theorem opBits_of_decode {w : Word} {i : Instr} (h : decode w = .ok i) :
    w.extractLsb' 13 3 = opBits (opcodeOf i) := by
  obtain ⟨r, hr, hw, rfl⟩ := exists_row_of_decode h
  rw [opcodeOf_operandsOf]
  exact ((selects_iff_fields hr w).1 hw).1

/-- Every word with OP = 0b100 is an RDIMG: that row has no reserved bits (R77). -/
theorem op_ne_rdimg_of_error {w : Word} {e : IllegalWord} (h : decode w = .error e) :
    w.extractLsb' 13 3 ≠ 0b100 := by
  intro hop
  have hlegal : ¬IsReserved w := by simp [IsReserved, reservedOp_iff, hop]
  obtain ⟨i, hi⟩ := (legal_iff_not_isReserved w).2 hlegal
  simp [hi] at h

/-- A word fills an empty RSP exactly when its OP is that of a read (R73, R154). -/
theorem rsp_isSome_runWord {w : Word} {s t : State} (hs : s.rsp = none) (ht : runWord w s = .next t) :
    t.rsp.isSome = true ↔ w.extractLsb' 13 3 = 0b100 ∨ w.extractLsb' 13 3 = 0b101 := by
  obtain ⟨i, hd, hi⟩ | ⟨e, hd, he⟩ := runWord_eq_next ht
  · rw [exec_rsp hi, opBits_of_decode hd]
    cases i <;> simp [rspAfter, hs, opcodeOf, opBits]
  · rw [execIllegal_eq, Host.Outcome.next.injEq] at he
    subst he
    rw [or_iff_right (op_ne_rdimg_of_error hd)]
    by_cases hop : w.extractLsb' 13 3 = 0b101 <;> simp [hop, hs]

theorem rspValid_iff {s : State} (hrst : (currentEdge s).rst = false) :
    rspValid s = true ↔ s.rsp ≠ none := by
  simp [rspValid, hrst, Option.isSome_iff_ne_none]

section FullRsp

variable {s : State} {v : RspWord} (hrsp : s.rsp = some v)
include hrsp

theorem cmdReady_of_full : cmdReady s = false := by simp [cmdReady, hrsp]

theorem accepts_of_full : accepts s = false := by simp [accepts, cmdReady_of_full hrsp]

theorem rspData_of_full (hrst : (currentEdge s).rst = false) : rspData s = v := by
  rw [rspData, if_pos ((rspValid_iff hrst).2 (by simp [hrsp])), hrsp, Option.getD_some]

theorem waitEdge_rsp_of_full (hrst : (currentEdge s).rst = false) :
    (waitEdge s).rsp = if (currentEdge s).rspReady = true then none else some v := by
  simp [takesResponse, rspValid, hrst, hrsp]

end FullRsp

/-- Settles O40: only reads fill RSP, and a full RSP holds cmd_ready at 0, so that the edge is a waiting
edge. -/
theorem responseChannelHoldsOneWord : Obligations.ResponseChannelHoldsOneWord := by
  refine ⟨fun w s t => rsp_isSome_runWord, fun s hrst => ⟨rspValid_iff hrst, fun v hrsp => ?_⟩⟩
  exact ⟨rspData_of_full hrsp hrst, cmdReady_of_full hrsp, waitEdge s,
    step_eq_waitEdge hrst (accepts_of_full hrsp), waitEdge_rsp_of_full hrsp hrst⟩

/-! ### The return of cmd_ready -/

/-- The host drives neither rst nor cmd_valid at any coming edge. -/
def HostIdle (s : State) : Prop := ∀ e ∈ s.edges, e.rst = false ∧ e.cmdValid = false

theorem currentEdge_of_hostIdle {s : State} (h : HostIdle s) :
    (currentEdge s).rst = false ∧ (currentEdge s).cmdValid = false := by
  unfold currentEdge
  cases hedges : s.edges with
  | nil => exact ⟨rfl, rfl⟩
  | cons e rest => exact h e (hedges ▸ List.mem_cons_self)

theorem hostIdle_waitEdge {s : State} (h : HostIdle s) : HostIdle (waitEdge s) :=
  fun e he => h e (List.mem_of_mem_tail he)

theorem step_of_hostIdle {s : State} (h : HostIdle s) : step s = .next (waitEdge s) := by
  obtain ⟨hrst, hvalid⟩ := currentEdge_of_hostIdle h
  exact step_eq_waitEdge hrst (by simp [accepts, hvalid])

/-- The latency counts down at each edge, until the core is ready in the frame it was left with. -/
theorem run_hostIdle_ready (n : Nat) {s : State} (hbusy : s.busy = n) (hrsp : s.rsp = none)
    (h : HostIdle s) :
    ∃ t, Sys2Proof.core.run n s = .next t ∧ cmdReady t = true ∧ sameArch t s := by
  induction n generalizing s with
  | zero => exact ⟨s, rfl, by simp [cmdReady, (currentEdge_of_hostIdle h).1, hrsp, hbusy], rfl⟩
  | succ n ih =>
    obtain ⟨t, ht, hready, hsame⟩ :=
      ih (s := waitEdge s) (by simp [hbusy]) (by simp [hrsp]) (hostIdle_waitEdge h)
    exact ⟨t, (run_succ_of_next n (step_of_hostIdle h)).trans ht, hready,
      hsame.trans (sameArch_waitEdge_of_empty hrsp)⟩

/-- Settles O38, by the countdown of the latency the core has left. -/
theorem readyReturnsAfterLatency : Obligations.ReadyReturnsAfterLatency :=
  fun s hrsp hidle => run_hostIdle_ready s.busy rfl hrsp hidle

end Sys2Proof.Proofs
end

section
/-! PROOFS. The words of the assembler (R83) and the expansions of the pseudo-commands (R84). -/

namespace Sys2Proof.Proofs

open Sys2Proof.Machine

/-! ### The word of an operand in range -/

/-- An operand below 2^k put under a pattern that is zero there is added to it. -/
theorem pattern_or_operand (a : Nat) {k n : Nat} (hn : n < 2 ^ k) (hk : k ≤ 16) :
    BitVec.ofNat 16 (2 ^ k * a) ||| (BitVec.ofNat k n).setWidth 16 = BitVec.ofNat 16 (2 ^ k * a + n) := by
  rw [Nat.two_pow_add_eq_or_of_lt hn, BitVec.ofNat_or, BitVec.setWidth_ofNat_of_le_of_lt hk hn]

theorem encode_start_num {n : Nat} (hn : n < 2) :
    encode (.start (asmMode (.num n))) = BitVec.ofNat 16 (0x2000 + n) := by
  interval_cases n <;> rfl

theorem encode_push_ofNat {n : Nat} (hn : n < 256) :
    encode (.push (BitVec.ofNat 8 n)) = BitVec.ofNat 16 (0x4000 + n) :=
  pattern_or_operand (k := 8) 0x40 hn (by decide)

theorem encode_rdimg_ofNat {n : Nat} (hn : n < 8192) :
    encode (.rdimg (BitVec.ofNat 13 n)) = BitVec.ofNat 16 (0x8000 + n) :=
  pattern_or_operand (k := 13) 4 hn (by decide)

theorem encode_rdreg_num {n : Nat} (hn : n < 4) :
    encode (.rdreg (asmReg (.num n))) = BitVec.ofNat 16 (0xA000 + n) := by
  interval_cases n <;> rfl

/-! ### Lines -/

/-- A line of one word whose operand has the range p. -/
theorem assembleLine_of_word {l : AsmLine} {w : Word} {p : Prop} [Decidable p]
    (hrange : l.wellFormed = decide p) (hword : p → lineWords l = [w]) :
    assembleLine l = if p then some [w] else none := by
  by_cases hp : p
  · simp [assembleLine, hrange, hp, hword hp]
  · simp [assembleLine, hrange, hp]

/-- Settles O52: the range check of each line is R83's, and an operand in range is added to the pattern
of its row. -/
theorem assemblerRejectsOutOfRange : Obligations.AssemblerRejectsOutOfRange :=
  ⟨rfl, rfl,
    fun _ => assembleLine_of_word rfl fun hn => congrArg ([·]) (encode_start_num hn),
    fun _ => assembleLine_of_word rfl fun hn => congrArg ([·]) (encode_push_ofNat hn),
    fun _ => assembleLine_of_word rfl fun hn => congrArg ([·]) (encode_rdimg_ofNat hn),
    fun _ => assembleLine_of_word rfl fun hn => congrArg ([·]) (encode_rdreg_num hn),
    rfl, rfl, rfl, rfl, rfl, rfl⟩

/-! ### Pseudo-commands -/

/-- Lines of one word each, assembled in order: all their words, or none if one line is rejected. -/
theorem flatten_mapM_assembleLine {line : Nat → AsmLine} {word : Nat → Word}
    (hline : ∀ n, lineWords (line n) = [word n]) (ns : List Nat) :
    (ns.mapM fun n => assembleLine (line n)).map List.flatten =
      if ns.all fun n => (line n).wellFormed then some (ns.map word) else none := by
  induction ns with
  | nil => rfl
  | cons n ns ih =>
    rw [List.mapM_cons, List.all_cons, List.map_cons, assembleLine, hline]
    cases (line n).wellFormed with
    | false => rfl
    | true =>
      have hcons : ∀ rest : Option (List (List Word)),
          (do let w ← some [word n]; let ws ← rest; pure (w :: ws)).map List.flatten =
            (rest.map List.flatten).map (word n :: ·) := by
        rintro (_ | ws) <;> rfl
      rw [if_pos rfl, hcons, ih, apply_ite (Option.map _)]
      rfl

theorem assembleLine_pushs {bs : List Nat} (hbs : bs ≠ []) : assembleLine (.pushs bs) =
    if bs.all fun b => (AsmLine.push b).wellFormed then some (pushWords bs) else none := by
  simp [assembleLine, AsmLine.wellFormed, lineWords, hbs]

theorem assembleLine_dump {n : Nat} (hn : n ≤ 8192) : assembleLine (.dump n) = some (dumpWords n) :=
  if_pos (decide_eq_true hn)

theorem rdimg_lines_wellFormed {n : Nat} (hn : n ≤ 8192) :
    ((List.range n).all fun a => (AsmLine.rdimg a).wellFormed) = true := by
  rw [List.all_eq_true]
  exact fun a ha => decide_eq_true ((List.mem_range.1 ha).trans_le hn)

/-- Settles O53: the one-word pseudo-commands are their expansions by definition; PUSHS and DUMP are the
words of their lines, in range together. -/
theorem pseudoCommandsExpand : Obligations.PseudoCommandsExpand := by
  refine ⟨rfl, rfl, rfl, rfl, rfl, rfl, fun bs hbs => ?pushs, fun n hn => ?dump, rfl,
    fun n hn => ?dumpOutside⟩
  case pushs => rw [assembleLine_pushs hbs, flatten_mapM_assembleLine (fun _ => rfl)]; rfl
  case dump =>
    rw [assembleLine_dump hn, flatten_mapM_assembleLine (fun _ => rfl), rdimg_lines_wellFormed hn]
    rfl
  case dumpOutside => exact if_neg (by simpa [AsmLine.wellFormed] using hn)

end Sys2Proof.Proofs
end

section
/-! PROOFS. NOP and START (R100 to R105): what they change, and how long the sticky bits stay set. -/

namespace Sys2Proof.Proofs

open Sys2Proof.Machine Sys2Proof.Safety

/-! ### NOP and START -/

theorem exec_nop (s : State) : exec .nop s = .next s := (Effect.nop s).exec_eq

theorem exec_start (m : Mode) (s : State) : exec (.start m) s = .next (openFrame m s) :=
  (Effect.start m s).exec_eq

/-- NOP's row has no operand: its word is the only legal one with OP = 0b000 (R80). -/
theorem eq_zero_of_decode_of_op_zero {w : Word} {i : Instr} (h : decode w = .ok i)
    (hop : w.extractLsb' 13 3 = 0b000) : w = 0x0000 := by
  rw [opBits_of_decode h] at hop
  cases i with
  | nop => exact (encodeDecodeRoundTrip w .nop h).symm
  | start m | push b | sealFrame | rdimg a | rdreg r => simp [opcodeOf, opBits] at hop

/-- Settles O6: a legal word with OP = 0b000 is NOP's own, and NOP runs to the state it found. -/
theorem nopLeavesStateEqual : Obligations.NopLeavesStateEqual :=
  ⟨rfl, decodeEncodeRoundTrip .nop,
    fun _ hop hne => illegal_iff_not_legal.2 fun ⟨_, hi⟩ => hne (eq_zero_of_decode_of_op_zero hi hop),
    exec_nop⟩

/-- Settles O7: the words are the encoded STARTs, and the opened frame has an image of fill bytes. -/
theorem startOpensFreshFrame : Obligations.StartOpensFreshFrame :=
  ⟨decodeEncodeRoundTrip (.start .encA), decodeEncodeRoundTrip (.start .encB),
    fun m s => ⟨openFrame m s, exec_start m s, rfl, fun _ _ => rfl⟩⟩

/-- The opened frame depends on what a frame does not own alone (R21, R104). -/
theorem openFrame_congr (m : Mode) {s u : State} (hseqerr : s.seqerr = u.seqerr) (hill : s.ill = u.ill)
    (hrsp : s.rsp = u.rsp) (hedges : s.edges = u.edges) (hbusy : s.busy = u.busy)
    (htick : s.tick = u.tick) : openFrame m s = openFrame m u := by
  rw [openFrame, hseqerr, hill, hrsp, hedges, hbusy, htick]
  rfl

/-- Settles O8: both states are taken to the same opened frame. -/
theorem startForgetsPreviousFrame : Obligations.StartForgetsPreviousFrame := by
  intro m s u hseqerr hill hrsp hedges hbusy htick
  refine ⟨openFrame m s, exec_start m s, ?_⟩
  rw [openFrame_congr m hseqerr hill hrsp hedges hbusy htick, exec_start]

/-! ### The sticky bits -/

/-- No command clears SEQERR (R30). -/
theorem exec_keeps_seqerr {i : Instr} {s t : State} (ht : exec i s = .next t) (h : s.seqerr = true) :
    t.seqerr = true := by
  cases Effect.of_exec ht with
  | pushOutsideAccum | sealOutsideAccum => rfl
  | nop | start | pushAtCap | pushStores | sealA | sealB | rdimg | rdreg => exact h

/-- Of the commands only START clears TRUNC (R29). -/
theorem start_of_exec_clears_trunc {i : Instr} {s t : State} (ht : exec i s = .next t)
    (hs : s.trunc = true) (htr : t.trunc = false) : ∃ m, i = .start m := by
  cases Effect.of_exec ht with
  | start m => exact ⟨m, rfl⟩
  | pushAtCap => cases htr
  | nop | pushOutsideAccum | pushStores | sealOutsideAccum | sealA | sealB | rdimg | rdreg =>
    exact absurd (hs.symm.trans htr) (by decide)

/-- An accepted word keeps SEQERR and ILL set, and clears TRUNC only as START (R29, R30). -/
theorem runWord_sticky {w : Word} {s t : State} (ht : runWord w s = .next t) :
    (s.seqerr = true → t.seqerr = true) ∧ (s.ill = true → t.ill = true) ∧
      (s.trunc = true → t.trunc = false → ∃ m, decode w = .ok (.start m)) := by
  obtain ⟨i, hd, hi⟩ | ⟨e, -, he⟩ := runWord_eq_next ht
  · refine ⟨exec_keeps_seqerr hi, (exec_ill hi).trans, fun hs htr => ?_⟩
    obtain ⟨m, rfl⟩ := start_of_exec_clears_trunc hi hs htr
    exact ⟨m, hd⟩
  · rw [execIllegal_eq, Host.Outcome.next.injEq] at he
    subst he
    exact ⟨id, fun _ => rfl, fun hs htr => absurd (hs.symm.trans htr) (by decide)⟩

/-- Settles O9: a reset edge clears the three bits, an accepted word treats them as `runWord_sticky` says,
and a waiting edge leaves them. -/
theorem stickyBitsStayUntilCleared : Obligations.StickyBitsStayUntilCleared := by
  refine ⟨fun m s => ⟨openFrame m s, exec_start m s, rfl, rfl⟩, fun s t ht => ?_⟩
  obtain ⟨hr, rfl⟩ | ⟨hr, ha, hw⟩ | ⟨hr, -, rfl⟩ := step_eq_next ht
  · simp [hr]
  · obtain ⟨hseqerr, hill, htrunc⟩ := runWord_sticky hw
    exact ⟨by simp [hr], fun _ => ⟨hseqerr, hill, fun hs htr => ⟨ha, htrunc hs htr⟩⟩⟩
  · simp +contextual [hr]

end Sys2Proof.Proofs
end

section
/-! PROOFS. PUSH (R110 to R119): the byte it stores, the byte it drops, the phases it refuses, and the
checksum of a frame's bytes in any order. -/

namespace Sys2Proof.Proofs

open Sys2Proof.Machine Sys2Proof.Safety

/-! ### Folding the modular adder -/

/-- ACC's adder, folded over a payload from 0, computes the payload's checksum (R118, R119). -/
theorem toNat_foldl_accAdd (m : Mode) (bs : List Byte) :
    (bs.foldl (accAdd m) 0x0000).toNat = checksum m bs := by
  induction bs using List.reverseRecOn with
  | nil => simp
  | append_singleton bs b ih =>
    rw [List.foldl_concat, accAdd_toNat, ih, checksum_append_singleton]

theorem checksum_replicate (m : Mode) (n : Nat) (b : Byte) :
    checksum m (List.replicate n b) = n * b.toNat % 2 ^ accWidth m := by
  simp [checksum, byteSum]

/-- Settles O13: the fold is the checksum, which truncates the sum once; the spec's example is its value
on 8180 equal bytes. -/
theorem truncatingEveryAdditionEqualsOnce : Obligations.TruncatingEveryAdditionEqualsOnce := by
  refine ⟨toNat_foldl_accAdd, BitVec.eq_of_toNat_eq ?_⟩
  rw [toNat_foldl_accAdd, checksum_replicate]
  rfl

/-! ### The bytes of one frame -/

/-- The checksum does not depend on the order of the bytes (R118). -/
theorem checksum_perm (m : Mode) {bs cs : List Byte} (h : bs.Perm cs) : checksum m bs = checksum m cs := by
  rw [checksum, checksum, byteSum, byteSum, (h.map BitVec.toNat).sum_eq]

/-- START and one PUSH per byte, up to CAP(m) of them, complete from any state in an open frame that holds
exactly these bytes, with their checksum in ACC (R115, R118). -/
theorem runCommands_start_pushes {m : Mode} {bs : List Byte} (hbs : bs.length ≤ cap m) (s : State) :
    ∃ t, runCommands (.start m :: bs.map .push) s = .next t ∧ t.mode = m ∧ payload t = bs ∧
      t.acc.toNat = checksum m bs := by
  obtain ⟨t, ht, -, hmode, -, -, -, hpay, hacc, -⟩ :=
    openFrameHoldsPushedBytes m (bs.map .push) s (by simp [inFrame])
  rw [pushedBytes_map_push, List.take_of_length_le hbs] at hpay hacc
  exact ⟨t, ht, hmode, hpay, hacc⟩

/-- Settles O14: the frame holds the bytes in their order as its payload, and a permutation of them has
the same checksum. -/
theorem checksumIgnoresByteOrder : Obligations.ChecksumIgnoresByteOrder := by
  intro m bs s hbs
  obtain ⟨t, ht, hmode, hpay, hacc⟩ := runCommands_start_pushes hbs s
  refine ⟨t, ht, hacc, ?stored, fun cs hperm => ?permuted⟩
  case stored =>
    subst hmode hpay
    exact fun i hi => read_payload t hi
  case permuted =>
    obtain ⟨u, hu, -, -, hacc'⟩ := runCommands_start_pushes (hperm.length_eq ▸ hbs) s
    exact ⟨u, hu, BitVec.eq_of_toNat_eq (by rw [hacc', hacc, checksum_perm m hperm])⟩

/-! ### One PUSH, by phase and capacity -/

/-- In mode B the adder sees ACC's low 8 bits alone (R114). -/
theorem accAdd_encB_toNat (acc : Acc) (b : Byte) :
    (accAdd .encB acc b).toNat = ((acc.extractLsb' 0 8).toNat + b.toNat) % 2 ^ 8 := by
  rw [accAdd_toNat, accWidth_encB, BitVec.extractLsb'_toNat, Nat.shiftRight_zero, Nat.mod_add_mod]

theorem exec_push_of_room {s : State} (hp : s.phase = .accum) (hr : s.count.toNat < cap s.mode)
    (b : Byte) : exec (.push b) s = .next (storePayload b s) :=
  (Effect.pushStores b hp hr.ne (payloadAddr_lt hr)).exec_eq

/-- Settles O10: below capacity PUSH ends in `storePayload`, whose three written fields are read off one
by one. -/
theorem pushStoresOneByte : Obligations.PushStoresOneByte := by
  refine ⟨⟨rfl, rfl, rfl, rfl⟩, fun b s hwf hp hr =>
    ⟨storePayload b s, exec_push_of_room hp hr b, rfl, ?count, ?bound, fun hm => ?accA, fun hm => ?accB,
      Nat.le_of_lt_succ (payloadAddr_lt hr), fun a => ?img⟩⟩
  case count => exact toNat_count_succ hr
  case bound =>
    rw [storePayload_count, toNat_count_succ hr]
    exact hr
  case accA => rw [storePayload_acc, hm, accAdd_toNat, accWidth_encA]
  case accB => rw [storePayload_acc, hm, accAdd_encB_toNat]
  case img =>
    rw [storePayload_img, Memory.read_write hwf]
    rfl

/-- Settles O11: the listed counts are CAP of each mode, and PUSH finds COUNT there. -/
theorem pushAtCapacityOnlySetsTrunc : Obligations.PushAtCapacityOnlySetsTrunc := by
  intro b s hp hA hB
  have hc : s.count.toNat = cap s.mode := by
    cases hm : s.mode with
    | encA => exact hA hm
    | encB => exact hB hm
  exact (Effect.pushAtCap b hp hc).exec_eq

/-- Settles O12: outside ACCUM PUSH and SEAL take their first branch, and the other four commands have
one branch each, which leaves SEQERR. -/
theorem wrongPhaseOnlySetsSeqerr : Obligations.WrongPhaseOnlySetsSeqerr := by
  intro s
  constructor
  · intro h
    have hp : s.phase ≠ .accum := by rcases h with h | h <;> simp [h]
    exact ⟨fun b => (Effect.pushOutsideAccum b hp).exec_eq, (Effect.sealOutsideAccum hp).exec_eq⟩
  · rintro i (rfl | ⟨m, rfl⟩ | ⟨a, rfl⟩ | ⟨r, rfl⟩)
    · exact ⟨s, exec_nop s, rfl⟩
    · exact ⟨openFrame m s, exec_start m s, rfl⟩
    · exact ⟨respond (imgWord a s) s, (Effect.rdimg a s).exec_eq, rfl⟩
    · exact ⟨respond (readReg r s) s, (Effect.rdreg r s).exec_eq, rfl⟩

end Sys2Proof.Proofs
end

section
/-! PROOFS. SEAL and the sealed frame (R130 to R143): the bytes each encoder writes, the empty frame, what
every sealed frame holds, and that it stays. -/

namespace Sys2Proof.Proofs

open Sys2Proof.Machine Sys2Proof.Safety

/-! ### Bytes at the start of an image -/

theorem read_of_imgBytes {m : Memory} {n : Nat} {bs : List Byte} (h : imgBytes m n = bs) {i : Nat}
    (hi : i < bs.length) : m.read i = bs[i] := by
  subst h
  simp [imgBytes]

theorem read_of_imgBytes_append {m : Memory} {n : Nat} {xs ys : List Byte}
    (h : imgBytes m n = xs ++ ys) {i : Nat} (hi : i < ys.length) :
    m.read (xs.length + i) = ys[i] := by
  rw [read_of_imgBytes h (by simpa using hi), List.getElem_append_right (by omega)]
  simp

theorem imgBytes_length_of_append {m : Memory} {n : Nat} {xs ys : List Byte} (h : imgBytes m n = xs ++ ys) :
    imgBytes m xs.length = xs := by
  have hn : n = xs.length + ys.length := by simpa using congrArg List.length h
  rw [imgBytes_eq_bytesFrom, hn, bytesFrom_add] at h
  rw [imgBytes_eq_bytesFrom]
  exact List.append_inj_left h (length_bytesFrom ..)

/-! ### SEAL in mode A -/

/-- The 12 bytes SEAL writes in mode A, from the registers alone (R131, R132). -/
def headerBytes (s : State) : List Byte :=
  headerConst ++ fieldBytes .le (s.count.setWidth 16) ++ fieldBytes .le s.acc

@[simp] theorem length_headerBytes (s : State) : (headerBytes s).length = 12 := rfl

theorem headerBytes_eq (s : State) : headerBytes s =
    [0x00, 0x32, 0x51, 0x04, 0x0C, 0x00, 0x0A, 0x01,
      byteOf 0 s.count.toNat, byteOf 1 s.count.toNat, s.acc.extractLsb' 0 8, s.acc.extractLsb' 8 8] := by
  rw [headerBytes, fieldBytes, loByte_eq_byteOf, hiByte_eq_byteOf, toNat_count_setWidth]
  rfl

/-- In mode A SEAL writes the header as one run of bytes, whatever the frame holds (R131, R132). -/
theorem sealedImgA_eq_writeBytes {s : State} (hm : s.mode = .encA) :
    sealedImgA s = s.img.writeBytes 0 (headerBytes s) := by
  rw [headerBytes, writeBytes_append, writeBytes_append, sealedImgA, hm]
  rfl

theorem imgBytes_sealedImgA_header {s : State} (hwf : s.img.wf) (hm : s.mode = .encA) :
    imgBytes (sealedImgA s) 12 = headerBytes s := by
  rw [imgBytes_eq_bytesFrom, sealedImgA_eq_writeBytes hm]
  exact bytesFrom_writeBytes_same hwf (bs := headerBytes s) (by simp)

/-- Settles O15: the sealed image is the open one with the header written over its first 12 bytes. -/
theorem sealWritesHeaderA : Obligations.SealWritesHeaderA := by
  intro s hwf hp hm hcap
  have hlen : (sealA s).outlen.toNat = 12 + s.count.toNat :=
    toNat_closeFrame_outlen _ s (show 12 + s.count.toNat < 16384 by omega)
  have hheader := (imgBytes_sealedImgA_header hwf hm).trans (headerBytes_eq s)
  refine ⟨sealA s, (Effect.sealA hp hm).exec_eq, rfl, hlen, by omega, by omega, hheader,
    fun a ha => ?payload, BitVec.setWidth_eq s.acc, fun hfull => ⟨?lo, ?hi, by omega⟩⟩
  case payload =>
    rw [sealA, closeFrame_img, sealedImgA_eq_writeBytes hm]
    exact Memory.read_writeBytes_outside _ _ (.inr ha)
  case lo => exact (read_of_imgBytes hheader (i := 8) (by simp)).trans (congrArg (byteOf 0) hfull)
  case hi => exact (read_of_imgBytes hheader (i := 9) (by simp)).trans (congrArg (byteOf 1) hfull)

/-! ### SEAL in mode B -/

theorem toNat_count_setWidth_succ (c : Count) : (c.setWidth 16 + 1 : Half).toNat = c.toNat + 1 := by
  have := count_lt c
  rw [BitVec.toNat_add, toNat_count_setWidth]
  exact Nat.mod_eq_of_lt (show c.toNat + 1 < 65536 by omega)

/-- What SEAL in mode B leaves at each address, whatever the frame holds (R136). -/
theorem read_sealedImgB {s : State} (hwf : s.img.wf) (hm : s.mode = .encB) (a : Nat) :
    (sealedImgB s).read a =
      if a = 0 then byteOf 1 (s.count.toNat + 1)
      else if a = 1 then byteOf 0 (s.count.toNat + 1)
      else if a = 2 + s.count.toNat then trailerByte (loByte s.acc)
      else s.img.read a := by
  have hlength : (put16 s.img 0 (s.count.setWidth 16 + 1) .be).wf := wf_put16 hwf (by decide) _ _
  rw [sealedImgB, hm, order_encB, Memory.read_write hlength, read_put16 hwf (by decide),
    hiByte_eq_byteOf, loByte_eq_byteOf (s.count.setWidth 16 + 1), toNat_count_setWidth_succ,
    trailerAddr, config_poffB]
  by_cases htrailer : a = 2 + s.count.toNat
  · rw [if_pos htrailer, if_neg (by omega), if_neg (by omega), if_pos htrailer]
  · rw [if_neg htrailer, if_neg htrailer]

/-- Settles O16: every clause is `read_sealedImgB`, or its value at an address SEAL wrote. -/
theorem sealWritesPrefixAndTrailerB : Obligations.SealWritesPrefixAndTrailerB := by
  intro s hwf hp hm hcap
  have haddr : trailerAddr s < 8192 := show 2 + s.count.toNat < 8192 by omega
  have hread := read_sealedImgB hwf hm
  refine ⟨sealB s, (Effect.sealB hp hm haddr).exec_eq, rfl, rfl, hread, fun hzero => ?trailer,
    fun hfull => ⟨?hi, ?lo, by omega⟩⟩
  case trailer =>
    have hbyte : trailerByte (loByte s.acc) = 0x00 := congrArg trailerByte hzero
    rw [sealB, closeFrame_img, hread, if_neg (by omega), if_neg (by omega), if_pos rfl, hbyte]
  case hi => exact (hread 0).trans (congrArg (fun n => byteOf 1 (n + 1)) hfull)
  case lo => exact (hread 1).trans (congrArg (fun n => byteOf 0 (n + 1)) hfull)

/-! ### What a sealed frame holds -/

theorem length_beforeTrailer (s : State) :
    (lengthFieldB (payload s) ++ payload s).length = 2 + s.count.toNat := by
  rw [List.length_append, length_lengthFieldB, length_payload]

section
variable {s : State} (h : CoreInv s) (hdone : s.phase = .done)
include h hdone

/-- The emitted image of a sealed frame is the encoder's image of its payload (R51, R52, R68). -/
theorem imgBytes_of_done : imgBytes s.img s.outlen.toNat = image s.mode (payload s) :=
  (h.sealedLayout hdone).1

theorem outlen_of_done : s.outlen.toNat = (image s.mode (payload s)).length := by
  rw [← imgBytes_of_done h hdone, length_imgBytes]

variable (hm : s.mode = .encB)
include hm

/-- The emitted image of a sealed mode-B frame, cut before its trailer (R52). -/
theorem imgBytes_of_done_encB : imgBytes s.img s.outlen.toNat = (lengthFieldB (payload s) ++ payload s) ++
    (byteOf 0 (256 - checksum .encB (payload s)) ::
      List.replicate (8192 - (3 + s.count.toNat)) 0xFF) := by
  rw [imgBytes_of_done h hdone, hm, image, imageB_eq_append, length_payload, List.append_assoc]
  rfl

theorem read_trailer_of_done :
    s.img.read (2 + s.count.toNat) = byteOf 0 (256 - checksum .encB (payload s)) := by
  rw [← length_beforeTrailer]
  exact read_of_imgBytes_append (imgBytes_of_done_encB h hdone hm) (i := 0) (by simp)

theorem read_behind_trailer_of_done {a : Nat} (hlt : 2 + s.count.toNat < a) (ha : a < 8192) :
    s.img.read a = 0xFF := by
  obtain ⟨k, rfl⟩ := Nat.exists_eq_add_of_lt hlt
  rw [Nat.add_assoc, ← length_beforeTrailer,
    read_of_imgBytes_append (imgBytes_of_done_encB h hdone hm) (by simp; omega),
    List.getElem_cons_succ, List.getElem_replicate]

/-- The trailer of a sealed mode-B frame cancels the checksum (R140). -/
theorem trailer_add_acc_of_done :
    ((s.img.read (2 + s.count.toNat)).toNat + (s.acc.extractLsb' 0 8).toNat) % 256 = 0 := by
  have hacc : s.acc.toNat = checksum .encB (payload s) := hm ▸ h.accIsChecksum
  have hlt := checksum_encB_lt (payload s)
  rw [read_trailer_of_done h hdone hm, BitVec.extractLsb'_toNat, hacc, byteOf, BitVec.toNat_ofNat,
    Nat.pow_zero, Nat.div_one, Nat.shiftRight_zero]
  omega

end

/-- Settles O18: the invariant fixes the emitted image of a sealed frame, whose first 8 bytes are the
constants in mode A, and whose end is the trailer and the fill in mode B. -/
theorem sealedFramesKeepSourceProperties : Obligations.SealedFramesKeepSourceProperties := by
  intro s h hdone
  refine ⟨fun hm => ?constants, fun hm =>
    ⟨trailer_add_acc_of_done h hdone hm, fun a => read_behind_trailer_of_done h hdone hm⟩⟩
  case constants =>
    have himg := imgBytes_of_done h hdone
    rw [hm] at himg
    exact imgBytes_length_of_append (xs := headerConst) himg

/-! ### The empty frame -/

/-- Settles O17: SEAL leads to a sealed frame of the same mode with the empty payload, whose emitted image
the invariant fixes. -/
theorem emptyFramesSealAsListed : Obligations.EmptyFramesSealAsListed := by
  intro s h hp hzero
  obtain ⟨t, ht, hinv, hdone, hmode, hpay⟩ := exec_sealFrame_of_accum h hp
  have hempty : payload t = [] := by rw [hpay, payload, hzero]; rfl
  have hcount : t.count.toNat = 0 := by rw [← length_payload, hempty, List.length_nil]
  have himg := imgBytes_of_done hinv hdone
  have hlen := outlen_of_done hinv hdone
  rw [hmode, hempty] at himg hlen
  refine ⟨t, ht, fun hm => ?encA, fun hm => ⟨?start, fun a hle hlt => ?fill⟩⟩
  case encA =>
    rw [hm] at himg hlen
    exact ⟨BitVec.eq_of_toNat_eq hlen, by rw [emittedImage, if_pos hdone, himg]; rfl⟩
  case start =>
    rw [hm] at himg
    exact imgBytes_length_of_append (xs := [0x00, 0x01, 0x00]) himg
  case fill => exact read_behind_trailer_of_done hinv hdone (hmode.trans hm) (by omega) (by omega)

/-! ### A sealed frame stays -/

/-- The two states have the same frame: what START writes, and SEAL and PUSH in ACCUM. -/
def SameFrame (s t : State) : Prop :=
  t.img = s.img ∧ t.mode = s.mode ∧ t.acc = s.acc ∧ t.count = s.count ∧ t.outlen = s.outlen ∧
    t.phase = s.phase ∧ t.trunc = s.trunc

/-- Outside ACCUM no command but START writes the frame (R143). -/
theorem exec_sameFrame {i : Instr} {s t : State} (ht : exec i s = .next t) (hp : s.phase ≠ .accum)
    (hi : ∀ m, i ≠ .start m) : SameFrame s t := by
  cases Effect.of_exec ht with
  | start m => exact absurd rfl (hi m)
  | pushAtCap _ hacc | pushStores _ hacc | sealA hacc | sealB hacc => exact absurd hacc hp
  | nop | pushOutsideAccum | sealOutsideAccum | rdimg | rdreg => exact ⟨rfl, rfl, rfl, rfl, rfl, rfl, rfl⟩

theorem execIllegal_sameFrame {w : Word} {s t : State} (ht : execIllegal w s = .next t) :
    SameFrame s t := by
  rw [execIllegal_eq, Host.Outcome.next.injEq] at ht
  subst ht
  exact ⟨rfl, rfl, rfl, rfl, rfl, rfl, rfl⟩

/-- NOP and the reads change nothing but RSP, in every phase (R60, R100). -/
theorem exec_read_withRsp {i : Instr} (hi : isRead i = true) (s : State) :
    ∃ t, exec i s = .next t ∧ t = { s with rsp := t.rsp } := by
  cases i with
  | nop | rdimg a | rdreg r => exact ⟨_, rfl, rfl⟩
  | start m | push b | sealFrame => simp [isRead] at hi

/-- Settles O19: an accepted word is START, or finds PHASE outside ACCUM and leaves the frame, and an edge
that accepts none leaves it too. -/
theorem sealedFrameCannotChange : Obligations.SealedFrameCannotChange := by
  intro s hdone
  have hp : s.phase ≠ .accum := by simp [hdone]
  refine ⟨fun b => (Effect.pushOutsideAccum b hp).exec_eq, (Effect.sealOutsideAccum hp).exec_eq,
    fun i hi => exec_read_withRsp hi s, fun t ht hr hstart => ?edge⟩
  show SameFrame s t
  obtain ⟨hrst, -⟩ | ⟨-, ha, hw⟩ | ⟨-, -, rfl⟩ := step_eq_next ht
  · exact absurd (hr.symm.trans hrst) (by decide)
  · obtain ⟨i, hd, hi⟩ | ⟨e, -, he⟩ := runWord_eq_next hw
    · exact exec_sameFrame (s := acceptEdge s) hi hp fun m him => hstart ha m (him ▸ hd)
    · exact execIllegal_sameFrame (s := acceptEdge s) he
  · exact ⟨rfl, rfl, rfl, rfl, rfl, rfl, rfl⟩

end Sys2Proof.Proofs
end

section
/-! PROOFS. The reads (R151 to R155): the words RDIMG and RDREG respond, what RDIMG finds in each phase,
and the emitted image as a host reads it out. -/

namespace Sys2Proof.Proofs

open Sys2Proof.Machine Sys2Proof.Safety

/-! ### What a read responds -/

theorem exec_rdimg (a : ImgAddr) (s : State) :
    exec (.rdimg a) s = .next { s with rsp := some (imgWord a s) } := (Effect.rdimg a s).exec_eq

theorem exec_rdreg (r : RegName) (s : State) :
    exec (.rdreg r) s = .next { s with rsp := some (readReg r s) } := (Effect.rdreg r s).exec_eq

theorem hiByte_imgWord (a : ImgAddr) (s : State) : hiByte (imgWord a s) = 0 := by
  ext i hi
  simp [hiByte, imgWord]

theorem loByte_imgWord (a : ImgAddr) (s : State) : loByte (imgWord a s) = s.img.read a.toNat := by
  rw [loByte, imgWord, BitVec.extractLsb'_setWidth_of_le (by decide), BitVec.extractLsb'_eq_self]

theorem imgWord_of_fill {a : ImgAddr} {s : State} (h : s.img.read a.toNat = 0xFF) :
    imgWord a s = 0x00FF := by
  rw [imgWord, h]
  rfl

/-- Settles O20: RDIMG's word decodes as any command's does, and the response is the byte under a zero
byte; behind the emitted image the invariant has the fill. -/
theorem rdimgRespondsByte : Obligations.RdimgRespondsByte := by
  intro a s
  have haddr := imgAddr_lt a
  exact ⟨decodeEncodeRoundTrip (.rdimg a), imgWord a s, exec_rdimg a s, hiByte_imgWord a s,
    loByte_imgWord a s, by omega,
    fun h hdone hbehind => imgWord_of_fill ((h.sealedLayout hdone).2 _ hbehind haddr)⟩

theorem statusWord_phase (s : State) : (statusWord s).extractLsb' 0 2 = phaseBits s.phase := by
  rw [statusWord, BitVec.extractLsb'_append_eq_right]

theorem statusWord_flags (s : State) :
    (statusWord s).getLsbD 2 = (s.mode == .encB) ∧ (statusWord s).getLsbD 3 = s.trunc ∧
      (statusWord s).getLsbD 4 = s.seqerr ∧ (statusWord s).getLsbD 5 = s.ill := by
  have hmode : (modeBit s.mode).getLsbD 0 = (s.mode == .encB) := by cases s.mode <;> rfl
  rw [← hmode]
  simp only [statusWord, BitVec.getLsbD_append]
  simp

theorem statusWord_high (s : State) : (statusWord s).extractLsb' 6 10 = 0 := by
  simp only [statusWord, BitVec.extractLsb'_append_eq_of_le, Nat.reduceLeDiff, Nat.reduceSub, le_refl]
  exact BitVec.extractLsb'_eq_self

/-- In mode B ACC is its low byte, zero-extended (R32). -/
theorem acc_eq_of_encB {s : State} (h : RegInv s) (hm : s.mode = .encB) :
    s.acc = 0#8 ++ s.acc.extractLsb' 0 8 := by
  have hhi : s.acc.extractLsb' 8 8 = 0#8 := h.accHighZero hm
  rw [← hhi]
  exact (BitVec.extractLsb'_append_extractLsb' (w := 8) (len := 8) (x := s.acc)).symm

/-- Settles O21: each register is what `readReg` names, STATUS by its fields, and the register invariant
gives the two zeros. -/
theorem rdregRespondsRegister : Obligations.RdregRespondsRegister := by
  refine ⟨by decide, fun s => ⟨⟨statusWord s, exec_rdreg .status s, ?phase, ?flags⟩, ?acc,
    exec_rdreg .count s, exec_rdreg .outlen s, acc_eq_of_encB, fun h hp => ?outlen⟩⟩
  case phase =>
    rw [statusWord_phase]
    cases s.phase <;> rfl
  case flags =>
    obtain ⟨hmode, htrunc, hseqerr, hill⟩ := statusWord_flags s
    exact ⟨hmode, htrunc, hseqerr, hill, statusWord_high s⟩
  case acc => rw [exec_rdreg, readReg, BitVec.setWidth_eq]
  case outlen =>
    rw [h.outlenZero hp]
    rfl

/-! ### The image in each phase -/

theorem emittedImage_isSome_iff (s : State) : (emittedImage s).isSome = true ↔ s.phase = .done := by
  simp [emittedImage]

theorem emittedImage_of_done {s : State} (hdone : s.phase = .done) :
    emittedImage s = some (imgBytes s.img s.outlen.toNat) := if_pos hdone

/-- Before SEAL the image is the payload at its offset, and the fill around it (R36, R152). -/
theorem responseTo_rdimg_of_open {s : State} (h : CoreInv s) (hopen : s.phase ≠ .done) (a : ImgAddr) :
    responseTo (.rdimg a) s =
      if h : poff s.mode ≤ a.toNat ∧ a.toNat - poff s.mode < (payload s).length then
        some ((payload s)[a.toNat - poff s.mode].setWidth 16)
      else some 0x00FF := by
  rw [responseTo_rdimg]
  split
  case isTrue hin => rw [← read_payload s hin.2, Nat.add_sub_cancel' hin.1]
  case isFalse hout =>
    rw [length_payload] at hout
    exact congrArg some (imgWord_of_fill (h.openFill hopen a.toNat (imgAddr_lt a) (by omega)))

/-- After SEAL the image is the emitted image, and the fill behind it (R152). -/
theorem responseTo_rdimg_of_done {s : State} (h : CoreInv s) (hdone : s.phase = .done) (a : ImgAddr) :
    responseTo (.rdimg a) s =
      if h : a.toNat < (image s.mode (payload s)).length then
        some ((image s.mode (payload s))[a.toNat].setWidth 16)
      else some 0x00FF := by
  rw [responseTo_rdimg]
  split
  case isTrue hin => rw [read_of_imgBytes (imgBytes_of_done h hdone) hin]
  case isFalse hout =>
    rw [← outlen_of_done h hdone, not_lt] at hout
    exact congrArg some (imgWord_of_fill ((h.sealedLayout hdone).2 _ hout (imgAddr_lt a)))

/-- Settles O23: IDLE is an open frame with the empty payload. -/
theorem rdimgReturnsImageOfThePhase : Obligations.RdimgReturnsImageOfThePhase := by
  intro s h
  refine ⟨fun hidle a => ?idle, fun haccum => responseTo_rdimg_of_open h (by simp [haccum]),
    fun hdone => ⟨_, emittedImage_of_done hdone, imgBytes_of_done h hdone, ?done⟩,
    emittedImage_isSome_iff s⟩
  case idle =>
    have hcount : s.count = 0 := (h.idleCleared hidle).1
    rw [responseTo_rdimg_of_open h (by simp [hidle])]
    exact dif_neg (by simp [hcount])
  case done =>
    rw [imgBytes_of_done h hdone]
    exact responseTo_rdimg_of_done h hdone

/-! ### Reading the emitted image out -/

/-- The length of the emitted image (R51, R52). -/
theorem outlen_of_done_by_mode {s : State} (h : CoreInv s) (hdone : s.phase = .done) :
    (s.mode = .encA → s.outlen.toNat = 12 + s.count.toNat) ∧
      (s.mode = .encB → s.outlen.toNat = 8192) := by
  rw [outlen_of_done h hdone]
  refine ⟨fun hm => ?encA, fun hm => ?encB⟩
  case encA =>
    rw [hm, image, imageA_eq_headerA_append, List.length_append, length_headerA, length_payload]
  case encB =>
    have hcap := count_le_of_encB h hm
    simp only [hm, image, imageB_eq_append, List.length_append, List.length_replicate,
      length_lengthFieldB, length_trailerB, length_payload]
    omega

theorem outlen_le_of_done {s : State} (h : CoreInv s) (hdone : s.phase = .done) :
    s.outlen.toNat ≤ 8192 := by
  obtain ⟨hA, hB⟩ := outlen_of_done_by_mode h hdone
  cases hm : s.mode with
  | encA =>
    have hcap : s.count.toNat ≤ 8180 := by simpa [hm] using h.countLeCap
    have := hA hm
    omega
  | encB => exact (hB hm).le

theorem toNat_readReg_outlen (s : State) : (readReg .outlen s).toNat = s.outlen.toNat := by
  have := outlen_lt s.outlen
  rw [readReg, BitVec.toNat_setWidth]
  exact Nat.mod_eq_of_lt (show s.outlen.toNat < 65536 by omega)

/-- RDIMG 0 .. n-1 in address order respond the first n bytes of IMG (R155). -/
theorem responses_rdimg_range (s : State) {n : Nat} (hn : n ≤ 8192) :
    ((List.range n).map fun a => responseTo (.rdimg (BitVec.ofNat 13 a)) s) =
      (imgBytes s.img n).map fun b => some (b.setWidth 16) := by
  rw [imgBytes, List.map_map]
  refine List.map_congr_left fun a ha => ?_
  have haddr : a < 2 ^ 13 := (List.mem_range.1 ha).trans_le hn
  rw [responseTo_rdimg, BitVec.toNat_ofNat, Nat.mod_eq_of_lt haddr, Function.comp_apply]

/-- Settles O24: L is OUTLEN, every address below it exists, and the bytes read are the emitted ones. -/
theorem readoutRecoversEmittedImage : Obligations.ReadoutRecoversEmittedImage := by
  intro s h hout
  have hdone := (outputs_done s).1 hout
  refine ⟨readReg .outlen s, imgBytes s.img s.outlen.toNat, rfl, emittedImage_of_done hdone, ?_⟩
  rw [toNat_readReg_outlen]
  exact ⟨length_imgBytes .., responses_rdimg_range s (outlen_le_of_done h hdone),
    outlen_of_done_by_mode h hdone⟩

end Sys2Proof.Proofs
end

section
/-! PROOFS. Every accepted word completes under the register invariant, so no run from a state of the
invariant ever stops (R160); and a word sets at most one status bit (R164). -/

namespace Sys2Proof.Proofs

open Sys2Proof.Machine Sys2Proof.Safety

/-! ### No stop -/

/-- Settles O26: a legal word runs its command, which completes, and an illegal word has one outcome. -/
theorem everyWordCompletes : Obligations.EveryWordCompletes := by
  intro w s h
  cases hd : decode w with
  | ok i => exact (runWord_of_ok hd s).symm ▸ exec_completes h i
  | error e => exact ⟨_, (runWord_of_error hd s).trans (execIllegal_eq w s)⟩

/-- Every edge completes: a reset edge and a waiting edge always, an accepting edge because the word it
accepts does (R160). -/
theorem step_completes {s : State} (h : CoreInv s) : ∃ t, step s = .next t := by
  cases hr : (currentEdge s).rst with
  | true => exact ⟨resetEdge s, if_pos hr⟩
  | false =>
    cases ha : accepts s with
    | true => exact step_of_accepts ha ▸ everyWordCompletes _ _ (coreInv_acceptEdge h).toRegInv
    | false => exact ⟨waitEdge s, step_eq_waitEdge hr ha⟩

/-- Settles O45, by induction on the number of edges: the coming edge completes and keeps the
invariant, so the rest of the run starts in it again. -/
theorem runsNeverStop : Obligations.RunsNeverStop := by
  intro n
  induction n with
  | zero => exact fun s h => ⟨s, rfl, h⟩
  | succ n ih =>
    intro s h
    obtain ⟨t, ht⟩ := step_completes h
    rw [run_succ_of_next n ht]
    exact ih t (stepKeepsInvariant s t h ht)

/-! ### What a word in each of R164's cases does to the status bits -/

theorem flags_of_runWord_illegal {w : Word} {e : IllegalWord} {s t : State} (hd : decode w = .error e)
    (ht : runWord w s = .next t) : t.ill = true ∧ t.seqerr = s.seqerr ∧ t.trunc = s.trunc := by
  rw [runWord_of_error hd, execIllegal_eq, Host.Outcome.next.injEq] at ht
  subst ht
  exact ⟨rfl, rfl, rfl⟩

/-- The commands that only an open frame takes (R117, R142). -/
theorem flags_of_exec_outsideAccum {i : Instr} {s t : State} (hi : (∃ b, i = .push b) ∨ i = .sealFrame)
    (hp : s.phase ≠ .accum) (ht : exec i s = .next t) :
    t.seqerr = true ∧ t.ill = s.ill ∧ t.trunc = s.trunc := by
  have hset : exec i s = .next (setSeqerr s) := by
    obtain ⟨b, rfl⟩ | rfl := hi
    · exact (Effect.pushOutsideAccum b hp).exec_eq
    · exact (Effect.sealOutsideAccum hp).exec_eq
  obtain rfl := Host.Outcome.next.inj (hset.symm.trans ht)
  exact ⟨rfl, rfl, rfl⟩

theorem flags_of_exec_push_atCap {b : Byte} {s t : State} (hp : s.phase = .accum)
    (hc : s.count.toNat = cap s.mode) (ht : exec (.push b) s = .next t) :
    t.trunc = true ∧ t.ill = s.ill ∧ t.seqerr = s.seqerr := by
  obtain rfl := Host.Outcome.next.inj ((Effect.pushAtCap b hp hc).exec_eq.symm.trans ht)
  exact ⟨rfl, rfl, rfl⟩

/-! ### Which case a newly set bit comes from -/

/-- A bit that is set and was kept was set before. -/
theorem not_newly_set_of_kept {p q : Bool} (hkept : q = p) (hq : q = true) : p ≠ false := by
  simp [← hkept, hq]

theorem outsideAccum_of_exec_sets_seqerr {i : Instr} {s t : State} (ht : exec i s = .next t)
    (hnew : t.seqerr = true) (hold : s.seqerr = false) :
    s.phase ≠ .accum ∧ ((∃ b, i = .push b) ∨ i = .sealFrame) := by
  cases Effect.of_exec ht with
  | pushOutsideAccum b hp => exact ⟨hp, .inl ⟨b, rfl⟩⟩
  | sealOutsideAccum hp => exact ⟨hp, .inr rfl⟩
  | nop | start | pushAtCap | pushStores | sealA | sealB | rdimg | rdreg =>
    exact absurd hold (not_newly_set_of_kept rfl hnew)

theorem push_atCap_of_exec_sets_trunc {i : Instr} {s t : State} (ht : exec i s = .next t)
    (hnew : t.trunc = true) (hold : s.trunc = false) :
    s.phase = .accum ∧ s.count.toNat = cap s.mode ∧ ∃ b, i = .push b := by
  cases Effect.of_exec ht with
  | pushAtCap b hp hc => exact ⟨hp, hc, b, rfl⟩
  | start => cases hnew
  | nop | pushOutsideAccum | pushStores | sealOutsideAccum | sealA | sealB | rdimg | rdreg =>
    exact absurd hold (not_newly_set_of_kept rfl hnew)

/-- Settles O25: a word runs its command or is illegal; each of R164's three cases sets its own bit
alone, and no other branch of a command sets a bit. -/
theorem commandSetsAtMostOneStatusBit : Obligations.CommandSetsAtMostOneStatusBit := by
  intro w s t ht
  obtain ⟨i, hd, hi⟩ | ⟨e, hd, -⟩ := runWord_eq_next ht
  · simp only [hd, Except.ok.injEq, reduceCtorEq, exists_false, and_false, forall_eq']
    refine ⟨nofun, fun hcmd hp => flags_of_exec_outsideAccum hcmd hp hi, ?atCap, ?newIll, ?newSeqerr,
      ?newTrunc⟩
    case atCap =>
      rintro b rfl hp hc
      exact flags_of_exec_push_atCap hp hc hi
    case newIll => exact fun hnew => not_newly_set_of_kept (exec_ill hi) hnew
    case newSeqerr =>
      intro hnew hold
      obtain ⟨hp, hcmd⟩ := outsideAccum_of_exec_sets_seqerr hi hnew hold
      obtain ⟨-, hill, htrunc⟩ := flags_of_exec_outsideAccum hcmd hp hi
      exact ⟨hill, htrunc, hp, hcmd⟩
    case newTrunc =>
      intro hnew hold
      obtain ⟨hp, hc, b, rfl⟩ := push_atCap_of_exec_sets_trunc hi hnew hold
      obtain ⟨-, hill, hseqerr⟩ := flags_of_exec_push_atCap hp hc hi
      exact ⟨hill, hseqerr, hp, hc, b, rfl⟩
  · obtain ⟨hill, hseqerr, htrunc⟩ := flags_of_runWord_illegal hd ht
    refine ⟨fun _ _ => ⟨hill, hseqerr, htrunc⟩, ?legal, ?push, fun _ _ => ⟨hseqerr, htrunc, e, hd⟩,
      fun hnew hold => absurd hold (not_newly_set_of_kept hseqerr hnew),
      fun hnew hold => absurd hold (not_newly_set_of_kept htrunc hnew)⟩
    case legal => exact fun i hok => absurd (hd.symm.trans hok) nofun
    case push => exact fun b hok => absurd (hd.symm.trans hok) nofun

end Sys2Proof.Proofs
end

section
/-! PROOFS. What the host's side of an edge can do: a reset edge (R181), the word of an edge at which
cmd_ready = 0 (R187), and a response that is never taken (R190). -/

namespace Sys2Proof.Proofs

open Sys2Proof.Machine Sys2Proof.Safety

/-! ### Reset -/

theorem step_of_rst {s : State} (hrst : (currentEdge s).rst = true) : step s = .next (resetEdge s) :=
  if_pos hrst

theorem cmdReady_of_rst {s : State} (hrst : (currentEdge s).rst = true) : cmdReady s = false := by
  simp [cmdReady, hrst]

theorem rspValid_of_rst {s : State} (hrst : (currentEdge s).rst = true) : rspValid s = false := by
  simp [rspValid, hrst]

theorem accepts_of_not_ready {s : State} (h : cmdReady s = false) : accepts s = false := by
  simp [accepts, h]

/-- Settles O33: the outputs are held down by rst, and the step is the reset edge. -/
theorem resetEdgeGivesResetState : Obligations.ResetEdgeGivesResetState := fun s hrst =>
  ⟨cmdReady_of_rst hrst, rspValid_of_rst hrst, accepts_of_not_ready (cmdReady_of_rst hrst),
    resetEdge s, step_of_rst hrst, rfl, rfl, rfl, rfl, rfl, rfl, rfl, rfl, fun _ _ => rfl, rfl⟩

/-! ### The word of an edge without acceptance -/

/-- While cmd_ready = 0 an edge resets or waits. -/
theorem step_of_not_ready {s : State} (h : cmdReady s = false) :
    step s = .next (if (currentEdge s).rst then resetEdge s else waitEdge s) := by
  cases hrst : (currentEdge s).rst with
  | true => exact step_of_rst hrst
  | false => exact step_eq_waitEdge hrst (accepts_of_not_ready h)

section OtherWord

/-! Another edge f in the place of the coming edge e, with the same rst and rsp_ready. -/

variable {s : State} {e f : Edge} {rest : List Edge} (hedges : s.edges = e :: rest)
include hedges

theorem resetEdge_otherEdge : resetEdge { s with edges := f :: rest } = resetEdge s := by
  simp [resetEdge, hedges]

variable (hrst : f.rst = e.rst)
include hrst

theorem cmdReady_otherWord : cmdReady { s with edges := f :: rest } = cmdReady s := by
  simp [cmdReady, currentEdge, hedges, hrst]

theorem waitEdge_otherWord (hrsp : f.rspReady = e.rspReady) :
    waitEdge { s with edges := f :: rest } = waitEdge s := by
  simp [waitEdge, passEdge, takesResponse, rspValid, currentEdge, hedges, hrst, hrsp]

end OtherWord

/-- Settles O39: the reset edge and the waiting edge do not look at cmd_valid and cmd_data, and an
accepting edge runs the word on cmd_data. -/
theorem onlyTheAcceptedWordCounts : Obligations.OnlyTheAcceptedWordCounts := by
  intro s e f rest hedges hrst hrsp
  refine ⟨fun hready => ⟨accepts_of_not_ready hready, ?otherWord⟩, fun hacc => ?accepted⟩
  case otherWord =>
    have hready' := (cmdReady_otherWord hedges hrst).trans hready
    rw [step_of_not_ready hready, step_of_not_ready hready', resetEdge_otherEdge hedges,
      waitEdge_otherWord hedges hrst hrsp, currentEdge_of_cons hedges, currentEdge_of_cons rfl, hrst]
  case accepted => rw [step_of_accepts hacc, currentEdge_of_cons hedges]

/-! ### A response that is never taken -/

/-- The host drives neither rst nor rsp_ready at any coming edge. -/
def HostNeverTakes (s : State) : Prop := ∀ e ∈ s.edges, e.rst = false ∧ e.rspReady = false

/-- The coming edge is a listed one, or the quiet edge past the end of the list (log 1). -/
theorem currentEdge_quiet_or_mem (s : State) : currentEdge s = Edge.quiet ∨ currentEdge s ∈ s.edges := by
  unfold currentEdge
  cases s.edges with
  | nil => exact .inl rfl
  | cons e rest => exact .inr List.mem_cons_self

theorem currentEdge_of_hostNeverTakes {s : State} (h : HostNeverTakes s) :
    (currentEdge s).rst = false ∧ (currentEdge s).rspReady = false := by
  obtain hquiet | hmem := currentEdge_quiet_or_mem s
  · rw [hquiet]; exact ⟨rfl, rfl⟩
  · exact h _ hmem

theorem hostNeverTakes_waitEdge {s : State} (h : HostNeverTakes s) : HostNeverTakes (waitEdge s) :=
  fun e he => h e (List.mem_of_mem_tail he)

theorem sameArch_waitEdge_of_untaken {s : State} (h : (currentEdge s).rspReady = false) :
    sameArch (waitEdge s) s := by
  simpa [h] using sameArch_waitEdge s

theorem rsp_eq_of_sameArch {s t : State} (h : sameArch t s) : t.rsp = s.rsp :=
  (congrArg State.rsp h :)

/-- Over a full RSP every edge of such a host waits, and leaves RSP full. -/
theorem run_hostNeverTakes (n : Nat) {s : State} {v : RspWord} (hrsp : s.rsp = some v)
    (h : HostNeverTakes s) : ∃ t, Sys2Proof.core.run n s = .next t ∧ sameArch t s := by
  induction n generalizing s with
  | zero => exact ⟨s, rfl, rfl⟩
  | succ n ih =>
    obtain ⟨hrst, hready⟩ := currentEdge_of_hostNeverTakes h
    have hstep := step_eq_waitEdge hrst (accepts_of_full hrsp)
    have hwait := sameArch_waitEdge_of_untaken hready
    obtain ⟨t, ht, hsame⟩ :=
      ih (s := waitEdge s) ((rsp_eq_of_sameArch hwait).trans hrsp) (hostNeverTakes_waitEdge h)
    exact ⟨t, (run_succ_of_next n hstep).trans ht, hsame.trans hwait⟩

/-- Settles O41: the run leaves RSP full, and a full RSP holds cmd_ready at 0. -/
theorem untakenResponseStallsCore : Obligations.UntakenResponseStallsCore := by
  intro n s hfull h
  obtain ⟨v, hrsp⟩ := Option.ne_none_iff_exists'.1 hfull
  obtain ⟨t, ht, hsame⟩ := run_hostNeverTakes n hrsp h
  exact ⟨t, ht, hsame, cmdReady_of_full ((rsp_eq_of_sameArch hsame).trans hrsp)⟩

end Sys2Proof.Proofs
end

section
/-! PROOFS. A host that keeps to its protocol sets no error bit (R188): every command it issues is in its
phase. -/

namespace Sys2Proof.Proofs

open Sys2Proof.Machine Sys2Proof.Safety

/-- The phase allows the command: PUSH and SEAL come in ACCUM (R162). -/
def InPhase (i : Instr) (p : Phase) : Prop := ((∃ b, i = .push b) ∨ i = .sealFrame) → p = .accum

/-- The protocol's flag is ACCUM, before each command and after it. -/
theorem followsProtocol_cons {i : Instr} {is : List Instr} {p : Phase}
    (h : followsProtocol (p == .accum) (i :: is) = true) :
    InPhase i p ∧ followsProtocol (phaseAfter i p == .accum) is = true := by
  cases i with
  | nop | start m | rdimg a | rdreg r => exact ⟨by simp [InPhase], h⟩
  | push b | sealFrame =>
    obtain ⟨hopen, his⟩ := Bool.and_eq_true_iff.1 h
    obtain rfl := eq_of_beq hopen
    exact ⟨fun _ => rfl, his⟩

/-- A command in its phase leaves SEQERR (R162). -/
theorem exec_seqerr_of_inPhase {i : Instr} {s t : State} (ht : exec i s = .next t)
    (h : InPhase i s.phase) : t.seqerr = s.seqerr := by
  cases Effect.of_exec ht with
  | pushOutsideAccum b hp => exact absurd (h (.inl ⟨b, rfl⟩)) hp
  | sealOutsideAccum hp => exact absurd (h (.inr rfl)) hp
  | nop | start | pushAtCap | pushStores | sealA | sealB | rdimg | rdreg => rfl

/-- A sequence that completes runs its first command, and the rest from there. -/
theorem runCommands_cons_eq_next {i : Instr} {is : List Instr} {s t : State}
    (h : runCommands (i :: is) s = .next t) :
    ∃ u, exec i s = .next u ∧ runCommands is u = .next t := by
  cases he : exec i s with
  | next u => exact ⟨u, rfl, runCommands_cons_of_next he is ▸ h⟩
  | fault f => simp [runCommands, he] at h
  | refused f => simp [runCommands, he] at h

/-- Settles O49, by induction on the commands: the first is in its phase, and PHASE after it is the flag
under which the rest follows the protocol. -/
theorem protocolNeverSetsErrors : Obligations.ProtocolNeverSetsErrors := by
  intro is
  induction is with
  | nil =>
    intro s t _ ht
    obtain rfl := Host.Outcome.next.inj ht
    exact ⟨rfl, rfl⟩
  | cons i is ih =>
    intro s t hfollows ht
    obtain ⟨hphase, his⟩ := followsProtocol_cons hfollows
    obtain ⟨u, hu, ht⟩ := runCommands_cons_eq_next ht
    rw [← exec_phase hu] at his
    rw [← exec_seqerr_of_inPhase hu hphase, ← exec_ill hu]
    exact ih u t his ht

end Sys2Proof.Proofs
end
